-- ==== Sys2Proof/Word.lean ====
section
/-! DEFINITION. The word types of FWIU32: a limb is 16 bits, the logical value, a command word and a host integer are
32 bits, a byte is 8 bits (spec/00_scope.md R6), a BUF address 8 bits (spec/20_memory.md R41) and a host address 12 bits
(spec/20_memory.md R49). -/

namespace Sys2Proof

/-- A 32-bit pattern: the logical value, a host integer, a command word, an `ovf` field (R6). -/
abbrev Word := BitVec 32

/-- One 16-bit limb of a value (R6, R14). -/
abbrev Limb := BitVec 16

/-- One byte of BUF (R29). -/
abbrev Byte := BitVec 8

/-- An address of BUF: address arithmetic on it wraps modulo 256 (R41). -/
abbrev BufAddr := BitVec 8

/-- An address of the host map (R49). -/
abbrev HostAddr := BitVec 12

end Sys2Proof
end

