-- ==== Sys2Proof/Syntax.lean ====
section
/-! DEFINITION. The 29 commands of FWIU32, one constructor per row of spec/opcode_table.json (spec/30_encoding.md R65), with
the operands of R62 to R64, and the pseudo-instructions of R74 as terms that expand to commands. -/

namespace Sys2Proof

/-- The number of a value register V0..V15 (spec/10_state.md R20). -/
abbrev VReg := Fin 16

/-- The number of a host-scalar register S0..S15 (spec/10_state.md R25). -/
abbrev SReg := Fin 16

/-- One command. The operands stand in the order of the assembly column of R72: destination first. `d`, `a`, `b` are the
values of RD, RA, RB (R63); `c` is a signed amount, `w` the iteration field, `len` and `addr` a sequence length and a BUF
address (R64). -/
inductive Instr where
  /-- FROMINT vd, sa (spec/40_conversion.md R101). -/
  | fromint (d : VReg) (a : SReg)
  /-- FROMB vd, addr, len (R102). -/
  | fromb (d : VReg) (addr : BufAddr) (len : Fin 16)
  /-- FROMRB vd, addr, len (R103). -/
  | fromrb (d : VReg) (addr : BufAddr) (len : Fin 16)
  /-- TOB va, addr (R104). -/
  | tob (a : VReg) (addr : BufAddr)
  /-- TORB va, addr (R105). -/
  | torb (a : VReg) (addr : BufAddr)
  /-- TOINT sd, va (R106). -/
  | toint (d : SReg) (a : VReg)
  /-- TOI64 vd, va, with vd even (R107, R68). -/
  | toi64 (d a : VReg)
  /-- ADD vd, va, vb (spec/41_arithmetic.md R121). -/
  | add (d a b : VReg)
  /-- ADDH vd, va, sb (R122). -/
  | addh (d a : VReg) (b : SReg)
  /-- SUB vd, va, vb (R124). -/
  | sub (d a b : VReg)
  /-- SUBH vd, va, sb (R125). -/
  | subh (d a : VReg) (b : SReg)
  /-- MUL vd, va, vb, w (R127). -/
  | mul (d a b : VReg) (w : Fin 64)
  /-- MULH vd, va, sb, w (R128). -/
  | mulh (d a : VReg) (b : SReg) (w : Fin 64)
  /-- RDOVF sd, va (R129). -/
  | rdovf (d : SReg) (a : VReg)
  /-- AND vd, va, vb (spec/42_bitwise.md R140). -/
  | and (d a b : VReg)
  /-- OR vd, va, vb (R141). -/
  | or (d a b : VReg)
  /-- XOR vd, va, vb (R142). -/
  | xor (d a b : VReg)
  /-- MASKH vd, va, sb (R143). -/
  | maskh (d a : VReg) (b : SReg)
  /-- ROTL vd, va, sb (spec/43_rotate_shift.md R155). -/
  | rotl (d a : VReg) (b : SReg)
  /-- ROTR vd, va, sb (R156). -/
  | rotr (d a : VReg) (b : SReg)
  /-- SHL vd, va, sb (R157). -/
  | shl (d a : VReg) (b : SReg)
  /-- SHR vd, va, sb (R158). -/
  | shr (d a : VReg) (b : SReg)
  /-- ROTLI vd, va, c (R159). -/
  | rotli (d a : VReg) (c : Int)
  /-- ROTRI vd, va, c (R160). -/
  | rotri (d a : VReg) (c : Int)
  /-- SHLI vd, va, c (R161). -/
  | shli (d a : VReg) (c : Int)
  /-- SHRI vd, va, c (R162). -/
  | shri (d a : VReg) (c : Int)
  /-- CMPH sd, va, sb (spec/44_compare.md R171). -/
  | cmph (d : SReg) (a : VReg) (b : SReg)
  /-- GTH sd, va, sb (R172). -/
  | gth (d : SReg) (a : VReg) (b : SReg)
  /-- LTH sd, va, sb (R173). -/
  | lth (d : SReg) (a : VReg) (b : SReg)
  deriving DecidableEq, Repr

/-- The pseudo-instructions of R74. -/
inductive Pseudo where
  /-- MV vd, va. -/
  | mv (d a : VReg)
  /-- CLR vd. -/
  | clr (d : VReg)
  /-- FROMB vd, addr, without a length. -/
  | fromb (d : VReg) (addr : BufAddr)
  /-- FROMRB vd, addr, without a length. -/
  | fromrb (d : VReg) (addr : BufAddr)
  /-- MUL vd, va, vb, without a W operand. -/
  | mul (d a b : VReg)
  /-- MULH vd, va, sb, without a W operand. -/
  | mulh (d a : VReg) (b : SReg)
  deriving DecidableEq, Repr

end Sys2Proof
end

