-- ==== Sys2Proof/WellFormed.lean ====
section
/-! DEFINITION. Which terms of `Instr` are commands: the assembler's refusals of spec/30_encoding.md R73 that the operand
types do not already make. A register number, a W, a LEN and an ADDR are in range by their types; the signed amount of
format I and the even destination of TOI64 (R68) are checked here. -/

namespace Sys2Proof

/-- The amounts of format I, -2048..2047 (R64, R73). -/
def amountInRange (c : Int) : Bool := decide (-2048 ≤ c ∧ c ≤ 2047)

/-- The destination of TOI64 selects a pair, so it is even (R63, R68). -/
def evenReg (d : VReg) : Bool := d.val % 2 == 0

/-- The checks of R73 on one instruction. -/
def Instr.wellFormed : Instr → Bool
  | .fromint _ _ => true
  | .fromb _ _ _ => true
  | .fromrb _ _ _ => true
  | .tob _ _ => true
  | .torb _ _ => true
  | .toint _ _ => true
  | .toi64 d _ => evenReg d
  | .add _ _ _ => true
  | .addh _ _ _ => true
  | .sub _ _ _ => true
  | .subh _ _ _ => true
  | .mul _ _ _ _ => true
  | .mulh _ _ _ _ => true
  | .rdovf _ _ => true
  | .and _ _ _ => true
  | .or _ _ _ => true
  | .xor _ _ _ => true
  | .maskh _ _ _ => true
  | .rotl _ _ _ => true
  | .rotr _ _ _ => true
  | .shl _ _ _ => true
  | .shr _ _ _ => true
  | .rotli _ _ c => amountInRange c
  | .rotri _ _ c => amountInRange c
  | .shli _ _ c => amountInRange c
  | .shri _ _ c => amountInRange c
  | .cmph _ _ _ => true
  | .gth _ _ _ => true
  | .lth _ _ _ => true

/-- `i` is one of the commands of R65 with operands inside their fields. -/
abbrev Instr.WellFormed (i : Instr) : Prop := i.wellFormed = true

end Sys2Proof
end

