-- ==== Sys2Proof/Decode.lean ====
section
/-! DEFINITION. The encoding of commands (spec/30_encoding.md): the fields of a word (R61, R64), the ten formats and their
masks (R62), the opcode map (R65), the decoder, total on any word and refusing by name (R66 to R71, R76), the encoder
(R75), and the expansion of the pseudo-instructions (R74). A command is one 32-bit word, moved whole to CMD, so no byte
order and no length question arises (R49, R60). -/

namespace Sys2Proof

/-! ### Fields -/

/-- OPC, bits 31:24 (R61). -/
def opcField (w : Word) : BitVec 8 := w.extractLsb' 24 8

/-- A 4-bit register field as a register number (R63). -/
def regNum (x : BitVec 4) : Fin 16 := ⟨x.toNat, x.isLt⟩

/-- A register number as a 4-bit field. -/
def regBits (r : Fin 16) : BitVec 4 := BitVec.ofNat 4 r.val

/-- A LEN as the 4-bit field IMM12[11:8] (R64). -/
def lenBits (len : Fin 16) : BitVec 4 := BitVec.ofNat 4 len.val

/-- A W as IMM12, whose bits 11:6 are 0 (R62, R64). -/
def widthBits (w : Fin 64) : BitVec 12 := BitVec.ofNat 12 w.val

/-- A signed amount as IMM12, in two's complement (R75). -/
def amountBits (c : Int) : BitVec 12 := BitVec.ofInt 12 c

/-- RD, bits 23:20 (R61). -/
def rd (w : Word) : Fin 16 := regNum (w.extractLsb' 20 4)

/-- RA, bits 19:16 (R61). -/
def ra (w : Word) : Fin 16 := regNum (w.extractLsb' 16 4)

/-- RB, bits 15:12 (R61). -/
def rb (w : Word) : Fin 16 := regNum (w.extractLsb' 12 4)

/-- The signed amount of format I: IMM12 read as two's complement (R64). -/
def amountField (w : Word) : Int := (w.extractLsb' 0 12).toInt

/-- W of format W: IMM12[5:0] (R64). -/
def widthField (w : Word) : Fin 64 := ⟨(w.extractLsb' 0 6).toNat, (w.extractLsb' 0 6).isLt⟩

/-- LEN of format BL: IMM12[11:8] (R64). -/
def lenField (w : Word) : Fin 16 := regNum (w.extractLsb' 8 4)

/-- ADDR of formats BL and BS: IMM12[7:0] (R64). -/
def addrField (w : Word) : BufAddr := w.extractLsb' 0 8

/-! ### Formats and the opcode map -/

/-- The ten formats (R62). -/
inductive Fmt where
  | r3 | rs | c | iv | xs | p | w | i | bl | bs
  deriving DecidableEq, Repr

/-- The mask of a format: every bit it fixes, the opcode and the must-be-zero bits (R62). -/
def Fmt.mask : Fmt → Word
  | .r3 => 0xFF000FFF#32
  | .rs => 0xFF000FFF#32
  | .c => 0xFF000FFF#32
  | .iv => 0xFF00FFFF#32
  | .xs => 0xFF00FFFF#32
  | .p => 0xFF10FFFF#32
  | .w => 0xFF000FC0#32
  | .i => 0xFF00F000#32
  | .bl => 0xFF0FF000#32
  | .bs => 0xFFF0FF00#32

/-- The must-be-zero bits of a format: its mask without the opcode (R62, R66). -/
def Fmt.mustBeZero (f : Fmt) : Word := f.mask &&& 0x00FFFFFF#32

/-- One row of the opcode map (R65). -/
structure OpcodeRow where
  mnemonic : String
  opc : BitVec 8
  fmt : Fmt
  deriving DecidableEq, Repr

/-- The match value of a row: OPC << 24 (R65). -/
def OpcodeRow.matchWord (r : OpcodeRow) : Word := r.opc ++ 0#24

/-- `(w & mask(row.format)) == row.match` (R71, R76). -/
def OpcodeRow.accepts (r : OpcodeRow) (w : Word) : Bool := w &&& r.fmt.mask == r.matchWord

/-- The opcode map: every assigned opcode (R65). -/
def opcodeMap : List OpcodeRow := [
  ⟨"FROMINT", 0x01#8, .iv⟩,
  ⟨"FROMB", 0x02#8, .bl⟩,
  ⟨"FROMRB", 0x03#8, .bl⟩,
  ⟨"TOB", 0x04#8, .bs⟩,
  ⟨"TORB", 0x05#8, .bs⟩,
  ⟨"TOINT", 0x06#8, .xs⟩,
  ⟨"TOI64", 0x07#8, .p⟩,
  ⟨"ADD", 0x10#8, .r3⟩,
  ⟨"ADDH", 0x11#8, .rs⟩,
  ⟨"SUB", 0x12#8, .r3⟩,
  ⟨"SUBH", 0x13#8, .rs⟩,
  ⟨"MUL", 0x14#8, .w⟩,
  ⟨"MULH", 0x15#8, .w⟩,
  ⟨"RDOVF", 0x16#8, .xs⟩,
  ⟨"AND", 0x20#8, .r3⟩,
  ⟨"OR", 0x21#8, .r3⟩,
  ⟨"XOR", 0x22#8, .r3⟩,
  ⟨"MASKH", 0x23#8, .rs⟩,
  ⟨"ROTL", 0x30#8, .rs⟩,
  ⟨"ROTR", 0x31#8, .rs⟩,
  ⟨"SHL", 0x32#8, .rs⟩,
  ⟨"SHR", 0x33#8, .rs⟩,
  ⟨"ROTLI", 0x38#8, .i⟩,
  ⟨"ROTRI", 0x39#8, .i⟩,
  ⟨"SHLI", 0x3A#8, .i⟩,
  ⟨"SHRI", 0x3B#8, .i⟩,
  ⟨"CMPH", 0x40#8, .c⟩,
  ⟨"GTH", 0x41#8, .c⟩,
  ⟨"LTH", 0x42#8, .c⟩]

/-! ### The decoder -/

/-- Why a word is no command. Both are the outcome Illegal (R203); the machine does not tell them apart (log 12: DESIGN CHOICE, safe). -/
inductive DecodeError where
  /-- Raised by `decode` for an OPC value that is not in the opcode map (R67, R69). -/
  | unassignedOpcode
  /-- Raised by `decode` for an assigned OPC with a 1 in a must-be-zero bit of its format (R66), an odd RD of TOI64 among
  them (R68). -/
  | mustBeZeroBitSet
  deriving DecidableEq, Repr

/-- The command, if the must-be-zero bits of the format are clear (R66). -/
def checked (f : Fmt) (w : Word) (i : Instr) : Except DecodeError Instr :=
  if w &&& f.mustBeZero = 0 then .ok i else .error .mustBeZeroBitSet

/-- The command a word stands for, or why it is illegal (R65 to R71, R76). -/
def decode (w : Word) : Except DecodeError Instr :=
  match opcField w with
  | 0x01#8 => checked .iv w (.fromint (rd w) (ra w))
  | 0x02#8 => checked .bl w (.fromb (rd w) (addrField w) (lenField w))
  | 0x03#8 => checked .bl w (.fromrb (rd w) (addrField w) (lenField w))
  | 0x04#8 => checked .bs w (.tob (ra w) (addrField w))
  | 0x05#8 => checked .bs w (.torb (ra w) (addrField w))
  | 0x06#8 => checked .xs w (.toint (rd w) (ra w))
  | 0x07#8 => checked .p w (.toi64 (rd w) (ra w))
  | 0x10#8 => checked .r3 w (.add (rd w) (ra w) (rb w))
  | 0x11#8 => checked .rs w (.addh (rd w) (ra w) (rb w))
  | 0x12#8 => checked .r3 w (.sub (rd w) (ra w) (rb w))
  | 0x13#8 => checked .rs w (.subh (rd w) (ra w) (rb w))
  | 0x14#8 => checked .w w (.mul (rd w) (ra w) (rb w) (widthField w))
  | 0x15#8 => checked .w w (.mulh (rd w) (ra w) (rb w) (widthField w))
  | 0x16#8 => checked .xs w (.rdovf (rd w) (ra w))
  | 0x20#8 => checked .r3 w (.and (rd w) (ra w) (rb w))
  | 0x21#8 => checked .r3 w (.or (rd w) (ra w) (rb w))
  | 0x22#8 => checked .r3 w (.xor (rd w) (ra w) (rb w))
  | 0x23#8 => checked .rs w (.maskh (rd w) (ra w) (rb w))
  | 0x30#8 => checked .rs w (.rotl (rd w) (ra w) (rb w))
  | 0x31#8 => checked .rs w (.rotr (rd w) (ra w) (rb w))
  | 0x32#8 => checked .rs w (.shl (rd w) (ra w) (rb w))
  | 0x33#8 => checked .rs w (.shr (rd w) (ra w) (rb w))
  | 0x38#8 => checked .i w (.rotli (rd w) (ra w) (amountField w))
  | 0x39#8 => checked .i w (.rotri (rd w) (ra w) (amountField w))
  | 0x3A#8 => checked .i w (.shli (rd w) (ra w) (amountField w))
  | 0x3B#8 => checked .i w (.shri (rd w) (ra w) (amountField w))
  | 0x40#8 => checked .c w (.cmph (rd w) (ra w) (rb w))
  | 0x41#8 => checked .c w (.gth (rd w) (ra w) (rb w))
  | 0x42#8 => checked .c w (.lth (rd w) (ra w) (rb w))
  | _ => .error .unassignedOpcode

/-! ### The encoder -/

/-- The five fields of a word put together, most significant first (R61, R75). -/
def pack (opc : BitVec 8) (d a b : BitVec 4) (imm : BitVec 12) : Word := opc ++ d ++ a ++ b ++ imm

/-- The word of a command (R75); unused fields are 0. -/
def encode : Instr → Word
  | .fromint d a => pack 0x01#8 (regBits d) (regBits a) 0 0
  | .fromb d addr len => pack 0x02#8 (regBits d) 0 0 (lenBits len ++ addr)
  | .fromrb d addr len => pack 0x03#8 (regBits d) 0 0 (lenBits len ++ addr)
  | .tob a addr => pack 0x04#8 0 (regBits a) 0 (0#4 ++ addr)
  | .torb a addr => pack 0x05#8 0 (regBits a) 0 (0#4 ++ addr)
  | .toint d a => pack 0x06#8 (regBits d) (regBits a) 0 0
  | .toi64 d a => pack 0x07#8 (regBits d) (regBits a) 0 0
  | .add d a b => pack 0x10#8 (regBits d) (regBits a) (regBits b) 0
  | .addh d a b => pack 0x11#8 (regBits d) (regBits a) (regBits b) 0
  | .sub d a b => pack 0x12#8 (regBits d) (regBits a) (regBits b) 0
  | .subh d a b => pack 0x13#8 (regBits d) (regBits a) (regBits b) 0
  | .mul d a b w => pack 0x14#8 (regBits d) (regBits a) (regBits b) (widthBits w)
  | .mulh d a b w => pack 0x15#8 (regBits d) (regBits a) (regBits b) (widthBits w)
  | .rdovf d a => pack 0x16#8 (regBits d) (regBits a) 0 0
  | .and d a b => pack 0x20#8 (regBits d) (regBits a) (regBits b) 0
  | .or d a b => pack 0x21#8 (regBits d) (regBits a) (regBits b) 0
  | .xor d a b => pack 0x22#8 (regBits d) (regBits a) (regBits b) 0
  | .maskh d a b => pack 0x23#8 (regBits d) (regBits a) (regBits b) 0
  | .rotl d a b => pack 0x30#8 (regBits d) (regBits a) (regBits b) 0
  | .rotr d a b => pack 0x31#8 (regBits d) (regBits a) (regBits b) 0
  | .shl d a b => pack 0x32#8 (regBits d) (regBits a) (regBits b) 0
  | .shr d a b => pack 0x33#8 (regBits d) (regBits a) (regBits b) 0
  | .rotli d a c => pack 0x38#8 (regBits d) (regBits a) 0 (amountBits c)
  | .rotri d a c => pack 0x39#8 (regBits d) (regBits a) 0 (amountBits c)
  | .shli d a c => pack 0x3A#8 (regBits d) (regBits a) 0 (amountBits c)
  | .shri d a c => pack 0x3B#8 (regBits d) (regBits a) 0 (amountBits c)
  | .cmph d a b => pack 0x40#8 (regBits d) (regBits a) (regBits b) 0
  | .gth d a b => pack 0x41#8 (regBits d) (regBits a) (regBits b) 0
  | .lth d a b => pack 0x42#8 (regBits d) (regBits a) (regBits b) 0

/-- The opcode of a command (R65). -/
def Instr.opc : Instr → BitVec 8
  | .fromint _ _ => 0x01#8
  | .fromb _ _ _ => 0x02#8
  | .fromrb _ _ _ => 0x03#8
  | .tob _ _ => 0x04#8
  | .torb _ _ => 0x05#8
  | .toint _ _ => 0x06#8
  | .toi64 _ _ => 0x07#8
  | .add _ _ _ => 0x10#8
  | .addh _ _ _ => 0x11#8
  | .sub _ _ _ => 0x12#8
  | .subh _ _ _ => 0x13#8
  | .mul _ _ _ _ => 0x14#8
  | .mulh _ _ _ _ => 0x15#8
  | .rdovf _ _ => 0x16#8
  | .and _ _ _ => 0x20#8
  | .or _ _ _ => 0x21#8
  | .xor _ _ _ => 0x22#8
  | .maskh _ _ _ => 0x23#8
  | .rotl _ _ _ => 0x30#8
  | .rotr _ _ _ => 0x31#8
  | .shl _ _ _ => 0x32#8
  | .shr _ _ _ => 0x33#8
  | .rotli _ _ _ => 0x38#8
  | .rotri _ _ _ => 0x39#8
  | .shli _ _ _ => 0x3A#8
  | .shri _ _ _ => 0x3B#8
  | .cmph _ _ _ => 0x40#8
  | .gth _ _ _ => 0x41#8
  | .lth _ _ _ => 0x42#8

/-- The format of a command (R65). -/
def Instr.fmt : Instr → Fmt
  | .fromint _ _ => .iv
  | .fromb _ _ _ => .bl
  | .fromrb _ _ _ => .bl
  | .tob _ _ => .bs
  | .torb _ _ => .bs
  | .toint _ _ => .xs
  | .toi64 _ _ => .p
  | .add _ _ _ => .r3
  | .addh _ _ _ => .rs
  | .sub _ _ _ => .r3
  | .subh _ _ _ => .rs
  | .mul _ _ _ _ => .w
  | .mulh _ _ _ _ => .w
  | .rdovf _ _ => .xs
  | .and _ _ _ => .r3
  | .or _ _ _ => .r3
  | .xor _ _ _ => .r3
  | .maskh _ _ _ => .rs
  | .rotl _ _ _ => .rs
  | .rotr _ _ _ => .rs
  | .shl _ _ _ => .rs
  | .shr _ _ _ => .rs
  | .rotli _ _ _ => .i
  | .rotri _ _ _ => .i
  | .shli _ _ _ => .i
  | .shri _ _ _ => .i
  | .cmph _ _ _ => .c
  | .gth _ _ _ => .c
  | .lth _ _ _ => .c

/-- What a pseudo-instruction expands to (R74). -/
def Pseudo.expand : Pseudo → Instr
  | .mv d a => .rotli d a 0
  | .clr d => .shli d d 32
  | .fromb d addr => .fromb d addr 4
  | .fromrb d addr => .fromrb d addr 4
  | .mul d a b => .mul d a b 0
  | .mulh d a b => .mulh d a b 0

/-! ### The host's numbering of table words -/

/-- The command word whose low `nbits` bits are `w` and whose other bits are 0. A command is one 32-bit word (R60), so bits
at and above 32 do not exist (log 13: DESIGN CHOICE, safe). -/
def tableWord (nbits w : Nat) : Word := BitVec.ofNat 32 (w % 2 ^ nbits)

/-- The instruction the decoder reads from a word given as the opcode table numbers it. -/
def decodeTableWord (nbits w : Nat) : Option Instr := (decode (tableWord nbits w)).toOption

end Sys2Proof
end

