-- ==== Sys2Proof/Config.lean ====
section
/-! DEFINITION. What an implementation of FWIU32 fixes for a run: the two OPEN parameters of spec/00_scope.md R6 and R7,
MUL_ZERO_WIDTH (decision D18) and LAT (decision D25). -/

namespace Sys2Proof

/-- The configuration of a run. It is not architectural state (spec/70_reset_and_hazards.md R231): `State` carries it so
that every statement holds for every value, and no step changes it (log 3: DESIGN CHOICE, unsafe). -/
structure Config where
  /-- MUL_ZERO_WIDTH: the multiplier's iteration count when the W field is 0 (R7, R126). -/
  mulZeroWidth : Nat
  deriving DecidableEq, Repr

/-- The default configuration: MUL_ZERO_WIDTH = 31 (R6, R7). -/
def Config.default : Config := ⟨31⟩

/-- MUL_ZERO_WIDTH is an integer in 1..63 (R7). -/
abbrev Config.wf (cfg : Config) : Prop := 1 ≤ cfg.mulZeroWidth ∧ cfg.mulZeroWidth ≤ 63

/-- The latency less one, as a function of MUL_ZERO_WIDTH and the command word. OPEN (R7, R242, D25): it has no body, so
nothing can be proved of its values (log 4: DESIGN CHOICE, safe). -/
opaque Config.latencyPred : Nat → Word → Nat

/-- LAT(word): positive, and a function of the command word and MUL_ZERO_WIDTH only (R7, R240). -/
def Config.lat (cfg : Config) (w : Word) : Nat := Config.latencyPred cfg.mulZeroWidth w + 1

end Sys2Proof
end

