-- ==== Sys2Proof/Machine/State.lean ====
section
/-! DEFINITION. The state of FWIU32 as plain data (spec/10_state.md), the host's inputs to it (spec/20_memory.md R49,
spec/70_reset_and_hazards.md R230, R233), the reset state (R38), and the reasons a step can stop. -/

namespace Sys2Proof.Machine

/-- The contents of a value register: one FixedWidthInt32 (R20). `hi` is limb 0, `lo` is limb 1 (R21), `ovf` the
overflow/carry accumulator (R22). -/
structure Value where
  hi : Limb
  lo : Limb
  ovf : Word
  deriving DecidableEq, Repr

/-- The contents of a host-scalar register: a host integer and its guard verdict, `true` for kind 1 (R25, R26). -/
structure Scalar where
  data : Word
  kind : Bool
  deriving DecidableEq, Repr

/-- BUF as its bytes that differ from 0x00: addresses strictly rising and below 256 (R29, R40) (log 11: DESIGN CHOICE, safe). -/
abbrev Memory := List Host.Cell

/-- STATUS.LAST, the outcome code of the most recent command (R30, R200); codes 4 to 15 are never produced, so the type has
exactly four values (spec/93_implementation_defined.md I8). -/
inductive Last where
  | ok | rangeError | typeError | illegal
  deriving DecidableEq, Repr

/-- STATUS (R30). Its reserved bits hold nothing: they read as 0 and ignore writes (log 10: DEDUCED, safe). -/
structure Status where
  last : Last
  rangeSeen : Bool
  typeSeen : Bool
  illegalSeen : Bool
  deriving DecidableEq, Repr

/-- The errors a command can end with (R200). -/
inductive ErrorKind where
  /-- A byte sequence whose length is not 4 (R201). -/
  | rangeError
  /-- A host-integer operand whose kind is 0 (R202). -/
  | typeError
  /-- A word that decodes to no command (R203). -/
  | illegal
  deriving DecidableEq, Repr

/-- One input of the machine: a host transaction (R49, R235) or a power-on reset (R230, R233). A width is a number of bits,
so that a transaction of any stated width can be written (R50); the byte of an 8-bit write is bits 7:0 of `data` (log 6: DESIGN CHOICE, safe). -/
inductive HostEvent where
  /-- A host read of the stated width. -/
  | read (addr : HostAddr) (width : Nat)
  /-- A host write of the stated width. -/
  | write (addr : HostAddr) (width : Nat) (data : Word)
  /-- The RESET transaction (R49, R230). -/
  | reset
  /-- A power-on reset: between transactions (`none`), or while the CMD write of a word is in progress (`some`, R233) (log 7: DEDUCED, safe). -/
  | powerOn (during : Option Word)
  deriving DecidableEq, Repr

/-- The machine. The first four fields are all the architectural state there is (R36). `cfg` is the run's configuration, no
state of the unit (R231, log 3: DESIGN CHOICE, unsafe); `pending` are the host's transactions not yet served, oldest first (log 1: DESIGN CHOICE, safe); `reads` are the
values the host's reads have returned, oldest first, part of the observation (R236, log 2: DESIGN CHOICE, safe). -/
structure State where
  vreg : Vector Value 16
  sreg : Vector Scalar 16
  buf : Memory
  status : Status
  cfg : Config
  pending : List HostEvent
  reads : List Word
  deriving DecidableEq, Repr

/-- The reset value of STATUS: LAST OK, no SEEN bit (R38). -/
def Status.reset : Status := ⟨.ok, false, false, false⟩

/-- The machine right after reset (R38, R230), with the default configuration (R7), nothing pending and nothing read. -/
def State.reset : State where
  vreg := Vector.replicate 16 ⟨0, 0, 0⟩
  sreg := Vector.replicate 16 ⟨0, false⟩
  buf := []
  status := Status.reset
  cfg := Config.default
  pending := []
  reads := []

/-- Reasons the machine stops with a fault: none. Every word has a defined outcome, every command completes, every host
transaction is defined, and an error is recorded in STATUS while the unit goes on (R71, R208, R209, R236;
spec/93_implementation_defined.md: "No behaviour of FWIU32 is `stuck`") (log 15: DEDUCED, safe). -/
inductive Fault where
  deriving DecidableEq, Repr

/-- Reasons an instruction is refused. -/
inductive Refusal where
  /-- Raised by `exec` alone, for an instruction that has no meaning yet: no arm of this model raises it. Safe: the model
  stops where the hardware goes on. -/
  | notModelled (mnemonic : String)
  deriving DecidableEq, Repr

/-- The outcome of a step of this machine. -/
abbrev Result := Host.Outcome State Fault Refusal

end Sys2Proof.Machine
end

