-- ==== Sys2Proof/Machine/Flags.lean ====
section
/-! DEFINITION. The flag computations: STATUS as the host sees it and as commands change it (spec/10_state.md R30, R31,
spec/60_exceptions.md R200, R204, R205), and the `ovf` values of results (R22, R121, R122, R144). -/

namespace Sys2Proof.Machine

/-- The code of an outcome in STATUS.LAST (R200). -/
def Last.code : Last → BitVec 4
  | .ok => 0
  | .rangeError => 1
  | .typeError => 2
  | .illegal => 3

/-- The outcome an error is recorded as (R200). -/
def ErrorKind.toLast : ErrorKind → Last
  | .rangeError => .rangeError
  | .typeError => .typeError
  | .illegal => .illegal

/-- A bit as a 1-bit field. -/
def flagBit (b : Bool) : BitVec 1 := BitVec.ofBool b

/-- STATUS as a host read returns it: 21 zeros, ILLEGAL_SEEN, TYPE_SEEN, RANGE_SEEN, 4 zeros, LAST (R31). -/
def Status.word (st : Status) : Word :=
  0#21 ++ flagBit st.illegalSeen ++ flagBit st.typeSeen ++ flagBit st.rangeSeen ++ 0#4 ++ st.last.code

/-- A host write to STATUS: each SEEN bit whose position is 1 in the word is cleared, and nothing else changes (R31). -/
def Status.clearSeen (st : Status) (w : Word) : Status :=
  { last := st.last
    rangeSeen := st.rangeSeen && !w.getLsbD 8
    typeSeen := st.typeSeen && !w.getLsbD 9
    illegalSeen := st.illegalSeen && !w.getLsbD 10 }

/-- STATUS after a command that raised an error: LAST is its code and its SEEN bit is set (R204). -/
def Status.onError (st : Status) (e : ErrorKind) : Status :=
  { last := e.toLast
    rangeSeen := st.rangeSeen || e == .rangeError
    typeSeen := st.typeSeen || e == .typeError
    illegalSeen := st.illegalSeen || e == .illegal }

/-- STATUS after a command that completed: LAST is OK and the SEEN bits stay (R205). -/
def Status.onSuccess (st : Status) : Status := { st with last := .ok }

/-- The `ovf` of a sum: the two accumulators and the final carry, modulo 2^32 (R121, R122). -/
def sumOvf (x y : Word) (carry : Nat) : Word := x + y + BitVec.ofNat 32 carry

/-- The `ovf` of AND: the operator applied to the two fields (R140, R144). -/
def andOvf (x y : Word) : Word := x &&& y

/-- The `ovf` of OR (R141, R144). -/
def orOvf (x y : Word) : Word := x ||| y

/-- The `ovf` of XOR (R142, R144). -/
def xorOvf (x y : Word) : Word := x ^^^ y

/-- The `ovf` of every other value-writing command (R22, R100, D4). -/
def noOvf : Word := 0

end Sys2Proof.Machine
end

