-- ==== Sys2Proof/Machine/Ops.lean ====
section
/-! DEFINITION. The named operations over the machine: the logical value of a register, BUF's bytes and 4-byte accesses,
reads and writes of the two register files, the end of a command with success or with an error (the one way an exception is
taken here: spec/60_exceptions.md R204, R208), and reset. There is no return from an exception (R209). -/

namespace Sys2Proof.Machine

/-! ### Values -/

/-- `u32(v)`, the logical 32-bit value (R10, R21). -/
def Value.u32 (v : Value) : Word := v.hi ++ v.lo

/-- Bits 31:16 of a word, limb 0 (R10). -/
def hiLimb (x : Word) : Limb := x.extractLsb' 16 16

/-- Bits 15:0 of a word, limb 1 (R10). -/
def loLimb (x : Word) : Limb := x.extractLsb' 0 16

/-- `mk(x, o)`: the value with logical value `x` and accumulator `o` (R10). -/
def Value.ofWord (x o : Word) : Value := ⟨hiLimb x, loLimb x, o⟩

/-! ### BUF -/

/-- What a byte of BUF that nothing has written reads as: its reset value (R38, R40). -/
def Memory.unlisted : Byte := 0

/-- The byte at an address. -/
def Memory.read : Memory → Nat → Byte
  | [], _ => Memory.unlisted
  | (k, b) :: m, a => if k = a then b else Memory.read m a

/-- A cell in front of a memory, left out when it holds what an unlisted address reads as. -/
def Memory.consCell (a : Nat) (b : Byte) (m : Memory) : Memory :=
  if b = Memory.unlisted then m else (a, b) :: m

/-- Writing a byte, keeping the canonical form. -/
def Memory.write : Memory → Nat → Byte → Memory
  | [], a, b => Memory.consCell a b []
  | (k, c) :: m, a, b =>
    if a < k then Memory.consCell a b ((k, c) :: m)
    else if a = k then Memory.consCell a b m
    else (k, c) :: Memory.write m a b

/-- The canonical form above a lower bound: rising addresses below 256, no byte an unlisted address reads as. -/
def Memory.wfFrom : Nat → Memory → Bool
  | _, [] => true
  | lo, (k, b) :: m => decide (lo ≤ k) && decide (k < 256) && decide (b ≠ Memory.unlisted) && Memory.wfFrom (k + 1) m

/-- The canonical form of BUF. -/
def Memory.wf (m : Memory) : Bool := Memory.wfFrom 0 m

/-- The byte BUF[a]. -/
def State.byte (s : State) (a : BufAddr) : Byte := Memory.read s.buf a.toNat

/-- `BUF[a] <- b`. -/
def State.setByte (s : State) (a : BufAddr) (b : Byte) : State := { s with buf := Memory.write s.buf a.toNat b }

/-- The address of byte `k` of an access at `addr`: `(addr + k) mod 256` (R41). -/
def byteAddr (addr : BufAddr) (k : Nat) : BufAddr := addr + BitVec.ofNat 8 k

/-- A 4-byte sequence, `b0` at the lowest address (R43). -/
structure Quad where
  b0 : Byte
  b1 : Byte
  b2 : Byte
  b3 : Byte
  deriving DecidableEq, Repr

/-- `MemRead(addr, 4)` (R12, R41, R42). -/
def State.readQuad (s : State) (addr : BufAddr) : Quad :=
  ⟨s.byte (byteAddr addr 0), s.byte (byteAddr addr 1), s.byte (byteAddr addr 2), s.byte (byteAddr addr 3)⟩

/-- `MemWrite(addr, 4, b)` (R12, R41, R42). -/
def State.writeQuad (s : State) (addr : BufAddr) (q : Quad) : State :=
  (((s.setByte (byteAddr addr 0) q.b0).setByte (byteAddr addr 1) q.b1).setByte (byteAddr addr 2) q.b2).setByte
    (byteAddr addr 3) q.b3

/-- The four addresses a 4-byte access at `addr` covers (R41, R104). -/
def quadAddrs (addr : BufAddr) : List BufAddr := [byteAddr addr 0, byteAddr addr 1, byteAddr addr 2, byteAddr addr 3]

/-- A sequence packed in forward order, big-endian (R43). -/
def Quad.forward (q : Quad) : Word := q.b0 ++ q.b1 ++ q.b2 ++ q.b3

/-- The sequence in reverse order (R44). -/
def Quad.reverse (q : Quad) : Quad := ⟨q.b3, q.b2, q.b1, q.b0⟩

/-- The logical value as a sequence in forward order (R43, R104). -/
def Value.quad (v : Value) : Quad :=
  ⟨v.hi.extractLsb' 8 8, v.hi.extractLsb' 0 8, v.lo.extractLsb' 8 8, v.lo.extractLsb' 0 8⟩

/-! ### Register files -/

/-- `V[r]` (R11). -/
def State.getV (s : State) (r : VReg) : Value := s.vreg[r]

/-- `V[r] <- v` (R11). -/
def State.setV (s : State) (r : VReg) (v : Value) : State := { s with vreg := s.vreg.set r v }

/-- `S[r]` (R11). -/
def State.getS (s : State) (r : SReg) : Scalar := s.sreg[r]

/-- `S[r] <- int(x)`: the data is `x` and the kind 1 (R11, R27). -/
def State.setInt (s : State) (r : SReg) (x : Word) : State := { s with sreg := s.sreg.set r ⟨x, true⟩ }

/-- Every `S[i].kind` becomes bit `i` of the word; the data stays (R27, R32). -/
def State.setKinds (s : State) (w : Word) : State :=
  { s with sreg := Vector.ofFn fun i : Fin 16 => ⟨(s.getS i).data, w.getLsbD i⟩ }

/-- The kind bits as a number, the first register's bit lowest. -/
def kindsNat : List Scalar → Nat
  | [] => 0
  | x :: xs => x.kind.toNat + 2 * kindsNat xs

/-- SKIND as a host read returns it: `S[i].kind` in bit `i`, 0 in bits 31:16 (R32). -/
def State.skind (s : State) : Word := BitVec.ofNat 32 (kindsNat s.sreg.toList)

/-! ### The end of a command -/

/-- The effect of success on the state (R205). -/
def State.complete (s : State) : State := { s with status := s.status.onSuccess }

/-- The effect of an error on the state: STATUS and nothing else (R204, R208). -/
def State.raise (s : State) (e : ErrorKind) : State := { s with status := s.status.onError e }

/-- The command completed, leaving `t` before STATUS is updated (R76, R205). -/
def done (t : State) : Result := .next t.complete

/-- The command raised `e` in state `s`: this is how an exception is taken (R76, R204). The unit goes on (R209). -/
def fail (e : ErrorKind) (s : State) : Result := .next (s.raise e)

/-! ### Reset and host reads -/

/-- Reset: every piece of state at its reset value in one step (R38, R230). The configuration is not state (R231), and the
host's own record of the run, what it still has to send and what it has read, is no part of the unit. -/
def State.resetUnit (s : State) : State :=
  { State.reset with cfg := s.cfg, pending := s.pending, reads := s.reads }

/-- A host read returned the value `x` (R236). -/
def State.returnRead (s : State) (x : Word) : State := { s with reads := s.reads ++ [x] }

end Sys2Proof.Machine
end

