-- ==== Sys2Proof/Machine/Alu.lean ====
section
/-! DEFINITION. The datapaths, at the limb level the spec gives them: adder (spec/41_arithmetic.md R120), subtractor (R123),
multiplier (R126), rotate and shift barrel (spec/43_rotate_shift.md R151 to R154) and comparator (spec/44_compare.md
R170) (log 9: DESIGN CHOICE, safe). -/

namespace Sys2Proof.Machine

/-! ### Adder and subtractor -/

/-- What the limb adder returns: the two result limbs and the final carry, 0 or 1 (R120). -/
structure Sum where
  hi : Limb
  lo : Limb
  carry : Nat
  deriving DecidableEq, Repr

/-- `add32(x, y)`: limb by limb, with a carry from the low limb into the high limb (R120). -/
def add32 (x y : Value) : Sum :=
  let r1 := x.lo.toNat + y.lo.toNat
  let c1 := r1 >>> 16
  let r0 := x.hi.toNat + y.hi.toNat + c1
  ⟨BitVec.ofNat 16 r0, BitVec.ofNat 16 r1, r0 >>> 16⟩

/-- `sub32(x, y)`: limb by limb, with a borrow from the low limb into the high limb; the final borrow is discarded and the
result's ovf is 0 (R123, R124, D5). -/
def sub32 (x y : Value) : Value :=
  let r1 : Int := x.lo.toNat - y.lo.toNat
  let b1 : Int := if r1 < 0 then 1 else 0
  let r0 : Int := x.hi.toNat - y.hi.toNat - b1
  ⟨BitVec.ofInt 16 r0, BitVec.ofInt 16 r1, noOvf⟩

/-! ### Multiplier -/

/-- The mask made from multiplier bit `i`: all ones if it is 1, else 0; a bit at or above 32 is 0 (R8, R126, D36). -/
def mulMask (n : Word) (i : Nat) : Word := if n.getLsbD i then BitVec.allOnes 32 else 0

/-- Iterations `i = k-1` down to 0 of the double-and-add loop from `acc` (R126). -/
def mulLoop (x n : Word) : Nat → Word → Word
  | 0, acc => acc
  | i + 1, acc => mulLoop x n i ((acc <<< 1) + (x &&& mulMask n i))

/-- `mul32` with K iterations (R126). -/
def mul32 (x n : Word) (k : Nat) : Word := mulLoop x n k 0

/-- The least-significant-first form of the loop: a running shifted copy of the multiplicand, bit `i` first (R126, C2). -/
def mulLsbLoop (n : Word) : Nat → Nat → Word → Word → Word
  | 0, _, _, acc => acc
  | k + 1, i, shifted, acc => mulLsbLoop n k (i + 1) (shifted <<< 1) (acc + (shifted &&& mulMask n i))

/-- The least-significant-first multiplier with K iterations: the other form the spec describes (R126, C2). No command runs
it. -/
def mulLsb32 (x n : Word) (k : Nat) : Word := mulLsbLoop n k 0 x 0

/-! ### Rotate and shift barrel -/

/-- `rotl32(v, c)`: the amount modulo 32 (Euclidean), a swap of the limbs when it crosses into the other limb, and a
sub-limb shift (R151). -/
def rotl32 (v : Value) (c : Int) : Word :=
  let k := (c % 32).toNat
  let s := k &&& 15
  let swap := (k >>> 4) &&& 1
  let x0 := if swap = 1 then v.lo else v.hi
  let x1 := if swap = 1 then v.hi else v.lo
  let o0 : Limb := (x0 <<< s) ||| (x1 >>> (16 - s))
  let o1 : Limb := (x1 <<< s) ||| (x0 >>> (16 - s))
  o0 ++ o1

/-- `rotr32(v, c)` (R152). -/
def rotr32 (v : Value) (c : Int) : Word := rotl32 v ((32 - c % 32) % 32)

/-- A left shift by a non-negative amount: modulo 64, and 0 from 32 on (R153). -/
def shlBy (x : Word) (c : Nat) : Word := if 32 ≤ c % 64 then 0 else x <<< (c % 64)

/-- A logical right shift by a non-negative amount: modulo 64, and 0 from 32 on (R154). -/
def shrBy (x : Word) (c : Nat) : Word := if 32 ≤ c % 64 then 0 else x >>> (c % 64)

/-- `shl32(X, c)`: a negative amount is first sent to the other direction (R153). -/
def shl32 (x : Word) (c : Int) : Word := if c < 0 then shrBy x (-c).toNat else shlBy x c.toNat

/-- `shr32(X, c)`: a negative amount is first sent to the other direction (R154). -/
def shr32 (x : Word) (c : Int) : Word := if c < 0 then shlBy x (-c).toNat else shrBy x c.toNat

/-! ### Comparator -/

/-- The comparator's running flags: greater-than, and still equal (R170). -/
structure CmpFlags where
  gt : Bool
  eq : Bool
  deriving DecidableEq, Repr

/-- One limb of the comparison (R170). -/
def CmpFlags.limb (f : CmpFlags) (x1 x2 : Limb) : CmpFlags :=
  ⟨f.gt || (decide (x2 < x1) && f.eq), f.eq && (x1 == x2)⟩

/-- `cmp32(v, n)`: unsigned, most significant limb first (R170). -/
def cmp32 (v : Value) (n : Word) : CmpFlags :=
  ((CmpFlags.mk false true).limb v.hi (hiLimb n)).limb v.lo (loLimb n)

/-- `lt`, the third of the comparator's results: `(1 - gt) & (1 - eq)` (R170). -/
def CmpFlags.lt (f : CmpFlags) : Bool := !f.gt && !f.eq

/-- A flag as the integer 1 or 0. -/
def flagWord (b : Bool) : Word := if b then 1 else 0

/-- `int(gt - lt)`: +1, 0 or -1 (R171). -/
def CmpFlags.order (f : CmpFlags) : Word := BitVec.ofInt 32 ((f.gt.toNat : Int) - f.lt.toNat)

end Sys2Proof.Machine
end

