-- ==== Sys2Proof/Machine/Operands.lean ====
section
/-! DEFINITION. Operand forms: the guarded read of a host integer (spec/00_scope.md R11, spec/60_exceptions.md R202), the
operand synthesized from one (spec/41_arithmetic.md R122, R125), signed amounts (spec/43_rotate_shift.md R150), and the
iteration count of the W field (R126). -/

namespace Sys2Proof.Machine

/-- `intArg(i)`: the data of S[i], or `none` where it raises TypeError because the kind is 0 (R11, R202). -/
def intArg (s : State) (i : SReg) : Option Word := if (s.getS i).kind then some (s.getS i).data else none

/-- A command that reads the host integer S[i]: with kind 0 it ends with TypeError and writes nothing else, with kind 1 it
completes in the state its rule gives for that integer (R11, R13, R26, R202). -/
def withInt (s : State) (i : SReg) (effect : Word → State) : Result :=
  match intArg s i with
  | none => fail .typeError s
  | some n => done (effect n)

/-- The value operand synthesized from a host integer: its limbs, with ovf 0 (R122, R125, D4). -/
def synthesized (n : Word) : Value := ⟨hiLimb n, loLimb n, noOvf⟩

/-- The amount of a register form: the host integer as a signed number (R28, R150). -/
def regAmount (n : Word) : Int := n.toInt

/-- K: MUL_ZERO_WIDTH if the W field is 0, else W (R126). -/
def iterations (cfg : Config) (w : Fin 64) : Nat := if w.val = 0 then cfg.mulZeroWidth else w.val

end Sys2Proof.Machine
end

