-- ==== Sys2Proof/Machine/Arithmetic.lean ====
section
/-! DEFINITION. Arithmetic and the overflow accumulator (spec/41_arithmetic.md R121 to R129). -/

namespace Sys2Proof.Machine

/-- The value a sum writes: the adder's limbs, and the accumulators with the final carry (R121, R122). -/
def sumValue (x y : Value) : Value :=
  let r := add32 x y
  ⟨r.hi, r.lo, sumOvf x.ovf y.ovf r.carry⟩

/-- ADD (R121). -/
def execAdd (d a b : VReg) (s : State) : Result :=
  done (s.setV d (sumValue (s.getV a) (s.getV b)))

/-- ADDH (R122). -/
def execAddh (d a : VReg) (b : SReg) (s : State) : Result :=
  withInt s b fun n => s.setV d (sumValue (s.getV a) (synthesized n))

/-- SUB (R124). -/
def execSub (d a b : VReg) (s : State) : Result :=
  done (s.setV d (sub32 (s.getV a) (s.getV b)))

/-- SUBH (R125). -/
def execSubh (d a : VReg) (b : SReg) (s : State) : Result :=
  withInt s b fun n => s.setV d (sub32 (s.getV a) (synthesized n))

/-- The value a multiply writes: K iterations of the multiplier, ovf 0 (R127, R128). -/
def mulValue (cfg : Config) (x n : Word) (w : Fin 64) : Value :=
  Value.ofWord (mul32 x n (iterations cfg w)) noOvf

/-- MUL (R127). -/
def execMul (d a b : VReg) (w : Fin 64) (s : State) : Result :=
  done (s.setV d (mulValue s.cfg (s.getV a).u32 (s.getV b).u32 w))

/-- MULH (R128). -/
def execMulh (d a : VReg) (b : SReg) (w : Fin 64) (s : State) : Result :=
  withInt s b fun n => s.setV d (mulValue s.cfg (s.getV a).u32 n w)

/-- RDOVF (R129). -/
def execRdovf (d : SReg) (a : VReg) (s : State) : Result :=
  done (s.setInt d (s.getV a).ovf)

end Sys2Proof.Machine
end

