-- ==== Sys2Proof/Machine/Barrel.lean ====
section
/-! DEFINITION. The rotate and shift barrel's commands (spec/43_rotate_shift.md R155 to R162). Every one writes ovf 0. -/

namespace Sys2Proof.Machine

/-- A register form: the amount is the host integer S[b] as a signed number (R150). -/
def turnByReg (f : Value → Int → Word) (d a : VReg) (b : SReg) (s : State) : Result :=
  withInt s b fun n => s.setV d (Value.ofWord (f (s.getV a) (regAmount n)) noOvf)

/-- An immediate form: the amount is the command's own (R150) (log 16: DESIGN CHOICE, safe). -/
def turnByImm (f : Value → Int → Word) (d a : VReg) (c : Int) (s : State) : Result :=
  done (s.setV d (Value.ofWord (f (s.getV a) c) noOvf))

/-- ROTL (R155). -/
def execRotl (d a : VReg) (b : SReg) (s : State) : Result := turnByReg rotl32 d a b s

/-- ROTR (R156). -/
def execRotr (d a : VReg) (b : SReg) (s : State) : Result := turnByReg rotr32 d a b s

/-- SHL (R157). -/
def execShl (d a : VReg) (b : SReg) (s : State) : Result := turnByReg (fun v c => shl32 v.u32 c) d a b s

/-- SHR (R158). -/
def execShr (d a : VReg) (b : SReg) (s : State) : Result := turnByReg (fun v c => shr32 v.u32 c) d a b s

/-- ROTLI (R159). -/
def execRotli (d a : VReg) (c : Int) (s : State) : Result := turnByImm rotl32 d a c s

/-- ROTRI (R160). -/
def execRotri (d a : VReg) (c : Int) (s : State) : Result := turnByImm rotr32 d a c s

/-- SHLI (R161). -/
def execShli (d a : VReg) (c : Int) (s : State) : Result := turnByImm (fun v c => shl32 v.u32 c) d a c s

/-- SHRI (R162). -/
def execShri (d a : VReg) (c : Int) (s : State) : Result := turnByImm (fun v c => shr32 v.u32 c) d a c s

end Sys2Proof.Machine
end

