-- ==== Sys2Proof/Machine/Bitwise.lean ====
section
/-! DEFINITION. Bitwise operations (spec/42_bitwise.md R140 to R144). -/

namespace Sys2Proof.Machine

/-- AND (R140). -/
def execAnd (d a b : VReg) (s : State) : Result :=
  let x := s.getV a
  let y := s.getV b
  done (s.setV d ⟨x.hi &&& y.hi, x.lo &&& y.lo, andOvf x.ovf y.ovf⟩)

/-- OR (R141). -/
def execOr (d a b : VReg) (s : State) : Result :=
  let x := s.getV a
  let y := s.getV b
  done (s.setV d ⟨x.hi ||| y.hi, x.lo ||| y.lo, orOvf x.ovf y.ovf⟩)

/-- XOR (R142). -/
def execXor (d a b : VReg) (s : State) : Result :=
  let x := s.getV a
  let y := s.getV b
  done (s.setV d ⟨x.hi ^^^ y.hi, x.lo ^^^ y.lo, xorOvf x.ovf y.ovf⟩)

/-- MASKH (R143). -/
def execMaskh (d a : VReg) (b : SReg) (s : State) : Result :=
  withInt s b fun m => s.setV d ⟨(s.getV a).hi &&& hiLimb m, (s.getV a).lo &&& loLimb m, noOvf⟩

end Sys2Proof.Machine
end

