-- ==== Sys2Proof/Machine/Compare.lean ====
section
/-! DEFINITION. Comparison with a host integer (spec/44_compare.md R171 to R173). -/

namespace Sys2Proof.Machine

/-- CMPH (R171). -/
def execCmph (d : SReg) (a : VReg) (b : SReg) (s : State) : Result :=
  withInt s b fun n => s.setInt d (cmp32 (s.getV a) n).order

/-- GTH (R172). -/
def execGth (d : SReg) (a : VReg) (b : SReg) (s : State) : Result :=
  withInt s b fun n => s.setInt d (flagWord (cmp32 (s.getV a) n).gt)

/-- LTH (R173). -/
def execLth (d : SReg) (a : VReg) (b : SReg) (s : State) : Result :=
  withInt s b fun n => s.setInt d (flagWord (cmp32 (s.getV a) n).lt)

end Sys2Proof.Machine
end

