-- ==== Sys2Proof/Machine/Conversion.lean ====
section
/-! DEFINITION. Construction, conversion and serialization (spec/40_conversion.md R100 to R107). -/

namespace Sys2Proof.Machine

/-- FROMINT (R101). -/
def execFromint (d : VReg) (a : SReg) (s : State) : Result :=
  withInt s a fun n => s.setV d (Value.ofWord n noOvf)

/-- Construction from a byte sequence: RangeError unless its length is 4, else the value its 4 bytes make in the order
given (R102, R103, R201). -/
def fromBytes (order : Quad → Word) (d : VReg) (addr : BufAddr) (len : Fin 16) (s : State) : Result :=
  if len = 4 then done (s.setV d (Value.ofWord (order (s.readQuad addr)) noOvf)) else fail .rangeError s

/-- FROMB (R102). -/
def execFromb (d : VReg) (addr : BufAddr) (len : Fin 16) (s : State) : Result :=
  fromBytes Quad.forward d addr len s

/-- FROMRB (R103). -/
def execFromrb (d : VReg) (addr : BufAddr) (len : Fin 16) (s : State) : Result :=
  fromBytes (fun q => q.reverse.forward) d addr len s

/-- TOB (R104). -/
def execTob (a : VReg) (addr : BufAddr) (s : State) : Result :=
  done (s.writeQuad addr (s.getV a).quad)

/-- TORB (R105). -/
def execTorb (a : VReg) (addr : BufAddr) (s : State) : Result :=
  done (s.writeQuad addr (s.getV a).quad.reverse)

/-- TOINT (R106). -/
def execToint (d : SReg) (a : VReg) (s : State) : Result :=
  done (s.setInt d (s.getV a).u32)

/-- A limb of the sign extension: all ones if bit 15 of `hi` is 1, else 0 (R107). -/
def signLimb (v : Value) : Limb := if v.hi.getLsbD 15 then 0xFFFF else 0

/-- The second register of the pair an even `d` selects (R63). -/
def pairReg (d : VReg) : VReg := d + 1

/-- TOI64 (R107). An odd destination is no command: it is Illegal (R68, R203). The decoder never gives one (log 8: DEDUCED, safe). -/
def execToi64 (d a : VReg) (s : State) : Result :=
  if evenReg d then
    let v := s.getV a
    let e := signLimb v
    done ((s.setV d ⟨e, e, noOvf⟩).setV (pairReg d) ⟨v.hi, v.lo, noOvf⟩)
  else fail .illegal s

end Sys2Proof.Machine
end

