-- ==== Sys2Proof/Machine/Dispatch.lean ====
section
/-! DEFINITION. The meaning of each command: one arm per constructor of Instr, each one direct call. -/

namespace Sys2Proof.Machine

def exec (i : Instr) (s : State) : Host.Outcome State Fault Refusal :=
  match i with
  | .fromint d a => Sys2Proof.Machine.execFromint d a s
  | .fromb d addr len => Sys2Proof.Machine.execFromb d addr len s
  | .fromrb d addr len => Sys2Proof.Machine.execFromrb d addr len s
  | .tob a addr => Sys2Proof.Machine.execTob a addr s
  | .torb a addr => Sys2Proof.Machine.execTorb a addr s
  | .toint d a => Sys2Proof.Machine.execToint d a s
  | .toi64 d a => Sys2Proof.Machine.execToi64 d a s
  | .add d a b => Sys2Proof.Machine.execAdd d a b s
  | .addh d a b => Sys2Proof.Machine.execAddh d a b s
  | .sub d a b => Sys2Proof.Machine.execSub d a b s
  | .subh d a b => Sys2Proof.Machine.execSubh d a b s
  | .mul d a b w => Sys2Proof.Machine.execMul d a b w s
  | .mulh d a b w => Sys2Proof.Machine.execMulh d a b w s
  | .rdovf d a => Sys2Proof.Machine.execRdovf d a s
  | .and d a b => Sys2Proof.Machine.execAnd d a b s
  | .or d a b => Sys2Proof.Machine.execOr d a b s
  | .xor d a b => Sys2Proof.Machine.execXor d a b s
  | .maskh d a b => Sys2Proof.Machine.execMaskh d a b s
  | .rotl d a b => Sys2Proof.Machine.execRotl d a b s
  | .rotr d a b => Sys2Proof.Machine.execRotr d a b s
  | .shl d a b => Sys2Proof.Machine.execShl d a b s
  | .shr d a b => Sys2Proof.Machine.execShr d a b s
  | .rotli d a c => Sys2Proof.Machine.execRotli d a c s
  | .rotri d a c => Sys2Proof.Machine.execRotri d a c s
  | .shli d a c => Sys2Proof.Machine.execShli d a c s
  | .shri d a c => Sys2Proof.Machine.execShri d a c s
  | .cmph d a b => Sys2Proof.Machine.execCmph d a b s
  | .gth d a b => Sys2Proof.Machine.execGth d a b s
  | .lth d a b => Sys2Proof.Machine.execLth d a b s

end Sys2Proof.Machine
end

