-- ==== Sys2Proof/Machine/HostPort.lean ====
section
/-! DEFINITION. The host's 12-bit address map (spec/20_memory.md R49, R50) and what a host read returns. -/

namespace Sys2Proof.Machine

/-- The row of the host map a transaction matches, or none of them (R49, R50). -/
inductive Port where
  | buf (a : BufAddr)
  | sdata (i : SReg)
  | skind
  | status
  | cmd
  | reserved
  deriving DecidableEq, Repr

/-- Which row a transaction of the given width at the given address matches (R49). A reserved address, a width other than
the row's, or an address between two word addresses matches none (R50). -/
def hostPort (addr : HostAddr) (width : Nat) : Port :=
  if width = 8 then
    if addr.toNat < 0x100 then .buf (BitVec.ofNat 8 addr.toNat) else .reserved
  else if width = 32 then
    if h : 0x100 ≤ addr.toNat ∧ addr.toNat < 0x140 ∧ addr.toNat % 4 = 0 then .sdata ⟨(addr.toNat - 0x100) / 4, by omega⟩
    else if addr.toNat = 0x140 then .skind
    else if addr.toNat = 0x144 then .status
    else if addr.toNat = 0x148 then .cmd
    else .reserved
  else .reserved

/-- The value a host read returns; a byte stands in the low bits. A read changes nothing (R31 to R33, R47, R49, R50). -/
def hostRead (s : State) : Port → Word
  | .buf a => (s.byte a).setWidth 32
  | .sdata i => (s.getS i).data
  | .skind => s.skind
  | .status => s.status.word
  | .cmd => 0
  | .reserved => 0

end Sys2Proof.Machine
end

