-- ==== Sys2Proof/Machine/Command.lean ====
section
/-! DEFINITION. The command step (spec/30_encoding.md R76) and the effect of each host transaction (spec/20_memory.md R49,
R50) and of power-on (spec/70_reset_and_hazards.md R230, R233). -/

namespace Sys2Proof.Machine

/-- `step(w)` of R76: the command the word decodes to runs; a word that is no command raises Illegal, before any operand is
read (R203). -/
def issue (w : Word) (s : State) : Result :=
  match decode w with
  | .ok i => exec i s
  | .error _ => fail .illegal s

/-- A host write that matched a row of the map (R27, R31, R32, R49), or none (R50). -/
def hostWrite (p : Port) (data : Word) (s : State) : Result :=
  match p with
  | .buf a => .next (s.setByte a (data.extractLsb' 0 8))
  | .sdata i => .next (s.setInt i data)
  | .skind => .next (s.setKinds data)
  | .status => .next { s with status := s.status.clearSeen data }
  | .cmd => issue data s
  | .reserved => .next s

/-- One input, served to completion (R51). A power-on reset during a CMD write abandons the command (R233). -/
def serve (e : HostEvent) (s : State) : Result :=
  match e with
  | .read addr width => .next (s.returnRead (hostRead s (hostPort addr width)))
  | .write addr width data => hostWrite (hostPort addr width) data s
  | .reset => .next s.resetUnit
  | .powerOn none => .next s.resetUnit
  | .powerOn (some _) => .next s.resetUnit

/-- The host address of CMD (R49). -/
def cmdAddr : HostAddr := 0x148

/-- The host's write of a command word to CMD (R33, R49). -/
def cmdWrite (w : Word) : HostEvent := .write cmdAddr 32 w

end Sys2Proof.Machine
end

