-- ==== Sys2Proof/Machine/Step.lean ====
section
/-! DEFINITION. One step of the machine: the oldest host transaction not yet served, to completion (spec/20_memory.md
R51). -/

namespace Sys2Proof.Machine

/-- One step. With nothing pending the unit is idle and holds all state (spec/60_exceptions.md R217, log 5: DEDUCED, safe). -/
def step (s : State) : Host.Outcome State Fault Refusal :=
  match s.pending with
  | [] => .next s
  | e :: rest => serve e { s with pending := rest }

/-- `s` with the host's CMD write of a table word as its next transaction (log 1: DESIGN CHOICE, safe, log 13: DESIGN CHOICE, safe). -/
def State.withFetchWord (s : State) (nbits w : Nat) : State :=
  { s with pending := cmdWrite (tableWord nbits w) :: s.pending }

end Sys2Proof.Machine
end

