-- ==== Sys2Proof/Machine/Assembler.lean ====
section
/-! DEFINITION. The assembler (spec/30_encoding.md R72 to R74): one line of text to the command it stands for, with every
refusal of R73. It runs on the host; no step of the machine uses it (log 14: DESIGN CHOICE, safe). -/

namespace Sys2Proof.Machine

/-! ### Operands and the assembly column of R72 -/

/-- An operand as written: a value register, a host-scalar register or a number (R72, R73). -/
inductive Operand where
  | v (r : VReg)
  | s (r : SReg)
  | imm (n : Int)
  deriving DecidableEq, Repr

/-- A LEN in 0..15 (R73). -/
def lenOperand (n : Int) : Option (Fin 16) := if h : 0 ≤ n ∧ n < 16 then some ⟨n.toNat, by omega⟩ else none

/-- A W in 0..63 (R73). -/
def widthOperand (n : Int) : Option (Fin 64) := if h : 0 ≤ n ∧ n < 64 then some ⟨n.toNat, by omega⟩ else none

/-- An ADDR in 0..255 (R73). -/
def addrOperand (n : Int) : Option BufAddr := if 0 ≤ n ∧ n < 256 then some (BitVec.ofInt 8 n) else none

/-- `op vd, va, vb` (format R3). -/
def asmR3 (f : VReg → VReg → VReg → Instr) : List Operand → Option Instr
  | [.v d, .v a, .v b] => some (f d a b)
  | _ => none

/-- `op vd, va, sb` (format RS). -/
def asmRS (f : VReg → VReg → SReg → Instr) : List Operand → Option Instr
  | [.v d, .v a, .s b] => some (f d a b)
  | _ => none

/-- `op sd, va, sb` (format C). -/
def asmC (f : SReg → VReg → SReg → Instr) : List Operand → Option Instr
  | [.s d, .v a, .s b] => some (f d a b)
  | _ => none

/-- `op vd, sa` (format IV). -/
def asmIV (f : VReg → SReg → Instr) : List Operand → Option Instr
  | [.v d, .s a] => some (f d a)
  | _ => none

/-- `op sd, va` (format XS). -/
def asmXS (f : SReg → VReg → Instr) : List Operand → Option Instr
  | [.s d, .v a] => some (f d a)
  | _ => none

/-- `op vd, va`, vd even (format P, R73). -/
def asmP (f : VReg → VReg → Instr) : List Operand → Option Instr
  | [.v d, .v a] => if evenReg d then some (f d a) else none
  | _ => none

/-- `MUL vd, va, vb, w`, or without w as the pseudo-instruction (format W, R74). -/
def asmMul : List Operand → Option Instr
  | [.v d, .v a, .v b, .imm n] => (widthOperand n).map (.mul d a b)
  | [.v d, .v a, .v b] => some (Pseudo.expand (.mul d a b))
  | _ => none

/-- `MULH vd, va, sb, w`, or without w as the pseudo-instruction (format W, R74). -/
def asmMulh : List Operand → Option Instr
  | [.v d, .v a, .s b, .imm n] => (widthOperand n).map (.mulh d a b)
  | [.v d, .v a, .s b] => some (Pseudo.expand (.mulh d a b))
  | _ => none

/-- `op vd, va, c` (format I, R73). -/
def asmI (f : VReg → VReg → Int → Instr) : List Operand → Option Instr
  | [.v d, .v a, .imm n] => if amountInRange n then some (f d a n) else none
  | _ => none

/-- `op vd, addr, len`, or without len as the pseudo-instruction (format BL, R74). -/
def asmBL (f : VReg → BufAddr → Fin 16 → Instr) (p : VReg → BufAddr → Pseudo) : List Operand → Option Instr
  | [.v d, .imm n, .imm l] => (addrOperand n).bind fun addr => (lenOperand l).map (f d addr)
  | [.v d, .imm n] => (addrOperand n).map fun addr => (p d addr).expand
  | _ => none

/-- `op va, addr` (format BS). -/
def asmBS (f : VReg → BufAddr → Instr) : List Operand → Option Instr
  | [.v a, .imm n] => (addrOperand n).map (f a)
  | _ => none

/-- `MV vd, va` (R74). -/
def asmMv : List Operand → Option Instr
  | [.v d, .v a] => some (Pseudo.expand (.mv d a))
  | _ => none

/-- `CLR vd` (R74). -/
def asmClr : List Operand → Option Instr
  | [.v d] => some (Pseudo.expand (.clr d))
  | _ => none

/-- Each mnemonic with the operands it takes (R65, R72, R74). -/
def assemblyTable : List (String × (List Operand → Option Instr)) := [
  ("FROMINT", asmIV .fromint),
  ("FROMB", asmBL .fromb .fromb),
  ("FROMRB", asmBL .fromrb .fromrb),
  ("TOB", asmBS .tob),
  ("TORB", asmBS .torb),
  ("TOINT", asmXS .toint),
  ("TOI64", asmP .toi64),
  ("ADD", asmR3 .add),
  ("ADDH", asmRS .addh),
  ("SUB", asmR3 .sub),
  ("SUBH", asmRS .subh),
  ("MUL", asmMul),
  ("MULH", asmMulh),
  ("RDOVF", asmXS .rdovf),
  ("AND", asmR3 .and),
  ("OR", asmR3 .or),
  ("XOR", asmR3 .xor),
  ("MASKH", asmRS .maskh),
  ("ROTL", asmRS .rotl),
  ("ROTR", asmRS .rotr),
  ("SHL", asmRS .shl),
  ("SHR", asmRS .shr),
  ("ROTLI", asmI .rotli),
  ("ROTRI", asmI .rotri),
  ("SHLI", asmI .shli),
  ("SHRI", asmI .shri),
  ("CMPH", asmC .cmph),
  ("GTH", asmC .gth),
  ("LTH", asmC .lth),
  ("MV", asmMv),
  ("CLR", asmClr)]

/-- The command a mnemonic and its operands stand for, or none where the assembler refuses them (R72, R73). -/
def assembleOps (name : String) (ops : List Operand) : Option Instr :=
  (assemblyTable.lookup name).bind fun parse => parse ops

/-! ### Text -/

/-- White space inside a line. -/
def isBlank (c : Char) : Bool := c == ' ' || c == '\t'

/-- The characters without leading and trailing white space. -/
def trimBlanks (cs : List Char) : List Char := ((cs.dropWhile isBlank).reverse.dropWhile isBlank).reverse

/-- The line without its comment: `;` starts one that runs to the end of the line (R72). -/
def dropComment (cs : List Char) : List Char := cs.takeWhile (· != ';')

/-- The parts of a list of characters between commas. -/
def splitCommas : List Char → List (List Char)
  | [] => [[]]
  | c :: cs =>
    if c = ',' then [] :: splitCommas cs
    else match splitCommas cs with
      | [] => [[c]]
      | p :: ps => (c :: p) :: ps

/-- The value of a digit in a base of at most 16. -/
def digitValue (base : Nat) (c : Char) : Option Nat :=
  let n := c.toNat
  let v := if 48 ≤ n ∧ n ≤ 57 then some (n - 48) else if 97 ≤ n ∧ n ≤ 102 then some (n - 87)
    else if 65 ≤ n ∧ n ≤ 70 then some (n - 55) else none
  v.bind fun d => if d < base then some d else none

/-- Digits in a base as a number, continuing from `acc`. -/
def digitsFrom (base : Nat) : Nat → List Char → Option Nat
  | acc, [] => some acc
  | acc, c :: cs => (digitValue base c).bind fun d => digitsFrom base (acc * base + d) cs

/-- At least one digit in a base. -/
def digits (base : Nat) : List Char → Option Nat
  | [] => none
  | c :: cs => digitsFrom base 0 (c :: cs)

/-- A number: decimal, optionally with a leading `-`, or hexadecimal with `0x` (R73). -/
def numberText : List Char → Option Int
  | '0' :: 'x' :: cs => (digits 16 cs).map Int.ofNat
  | '-' :: cs => (digits 10 cs).map fun n => -(n : Int)
  | cs => (digits 10 cs).map Int.ofNat

/-- A register number written in decimal without leading zeros, 0..15 (R72). -/
def regText : List Char → Option (Fin 16)
  | '0' :: _ :: _ => none
  | cs => (digits 10 cs).bind fun n => if h : n < 16 then some ⟨n, h⟩ else none

/-- One operand: a register `v0`..`v15` or `s0`..`s15`, or a number (R72, R73). -/
def operandText : List Char → Option Operand
  | 'v' :: cs => (regText cs).map .v
  | 's' :: cs => (regText cs).map .s
  | cs => (numberText cs).map .imm

/-- The operands of a line; nothing after the mnemonic is no operand. -/
def operandsText (cs : List Char) : Option (List Operand) :=
  if cs = [] then some [] else (splitCommas cs).mapM fun part => operandText (trimBlanks part)

/-- What a line of assembly stands for. -/
inductive AsmLine where
  /-- White space and comment only. -/
  | empty
  /-- A command. -/
  | command (i : Instr)
  /-- The assembler refuses the line (R73): it never becomes a word. -/
  | refused
  deriving DecidableEq, Repr

/-- The characters of a line read as `MNEMONIC op, op, ...`; mnemonics are case-insensitive (R72). -/
def assembleChars (line : List Char) : AsmLine :=
  match trimBlanks (dropComment line) with
  | [] => .empty
  | cs =>
    let name := String.ofList ((cs.takeWhile fun c => !isBlank c).map Char.toUpper)
    let rest := trimBlanks (cs.dropWhile fun c => !isBlank c)
    match (operandsText rest).bind (assembleOps name) with
    | some i => .command i
    | none => .refused

/-- One line of assembly (R72, R73). -/
def assembleLine (line : String) : AsmLine := assembleChars line.toList

end Sys2Proof.Machine
end

