-- ==== Sys2Proof/Machine/Latency.lean ====
section
/-! DEFINITION. The duration of a CMD write (spec/70_reset_and_hazards.md R240). No step reads it (R242). -/

namespace Sys2Proof.Machine

/-- The latency of the command an input issues, if it issues one and the command is not abandoned (R240). It sees the
configuration and the transaction, never the machine's registers. -/
def commandLatency (cfg : Config) : HostEvent → Option Nat
  | .write addr width data =>
    match hostPort addr width with
    | .cmd => some (cfg.lat data)
    | .buf _ => none
    | .sdata _ => none
    | .skind => none
    | .status => none
    | .reserved => none
  | .read _ _ => none
  | .reset => none
  | .powerOn _ => none

end Sys2Proof.Machine
end

