-- ==== Sys2Proof/Safety.lean ====
section
/-! DEFINITION. The terms in which statements about the machine are made: the invariant, what a command may write, how it
ends, what a transaction writes, what two runs may be compared on, and which operand lists are assembly. -/

namespace Sys2Proof.Machine

/-! ### The invariant -/

/-- BUF is in the canonical form that the model chose for it (log 11: DESIGN CHOICE, safe), and MUL_ZERO_WIDTH is in 1..63
(spec/00_scope.md R7). -/
def State.Inv (s : State) : Prop := Memory.wf s.buf = true ∧ s.cfg.wf

/-! ### Frames and ends of a command -/

/-- From `s` to `t` nothing but STATUS, the named V and S registers and the named bytes of BUF may have changed (R37). -/
structure Frame (vs : List VReg) (ss : List SReg) (stored : List BufAddr) (s t : State) : Prop where
  vregs : ∀ r, r ∉ vs → t.getV r = s.getV r
  sregs : ∀ r, r ∉ ss → t.getS r = s.getS r
  bytes : ∀ a, a ∉ stored → t.byte a = s.byte a
  cfg : t.cfg = s.cfg
  pending : t.pending = s.pending
  reads : t.reads = s.reads

/-- STATUS after success: LAST is OK and the SEEN bits are as before (R205). -/
structure StatusCompleted (s t : State) : Prop where
  last : t.status.last = .ok
  rangeSeen : t.status.rangeSeen = s.status.rangeSeen
  typeSeen : t.status.typeSeen = s.status.typeSeen
  illegalSeen : t.status.illegalSeen = s.status.illegalSeen

/-- STATUS after an error: LAST is its code, its SEEN bit is set and the others are as before (R204). -/
def StatusRaised (e : ErrorKind) (s t : State) : Prop :=
  match e with
  | .rangeError => t.status = ⟨.rangeError, true, s.status.typeSeen, s.status.illegalSeen⟩
  | .typeError => t.status = ⟨.typeError, s.status.rangeSeen, true, s.status.illegalSeen⟩
  | .illegal => t.status = ⟨.illegal, s.status.rangeSeen, s.status.typeSeen, true⟩

/-- Nothing but STATUS differs (R204, R208). -/
def OnlyStatusChanged (s t : State) : Prop := t = { s with status := t.status }

/-- The command answers a next state with its own effect: `post` holds of it, it changed nothing but the named destinations,
and STATUS records success. -/
def Completes (i : Instr) (s : State) (vs : List VReg) (ss : List SReg) (stored : List BufAddr) (post : State → Prop) : Prop :=
  ∃ t, exec i s = .next t ∧ post t ∧ Frame vs ss stored s t ∧ StatusCompleted s t

/-- The command answers a next state that records the error and differs in nothing else (R204). -/
def Raises (e : ErrorKind) (i : Instr) (s : State) : Prop :=
  ∃ t, exec i s = .next t ∧ OnlyStatusChanged s t ∧ StatusRaised e s t

/-- A command that reads the host integer S[b]: with kind 0 it raises TypeError, with kind 1 `ok` holds of its data (R26,
R202). -/
def Guarded (i : Instr) (b : SReg) (s : State) (ok : Word → Prop) : Prop :=
  ((s.getS b).kind = false → Raises .typeError i s) ∧ ((s.getS b).kind = true → ok (s.getS b).data)

/-- Every word that matches the row (`match`, `mask`) is the command its fields make (R65, R71). -/
def RowDecodes (matchWord mask : Word) (build : Word → Instr) : Prop :=
  ∀ w : Word, w &&& mask = matchWord → decode w = .ok (build w)

/-- A value with this logical value and accumulator. -/
def Value.Is (v : Value) (x ovf : Word) : Prop := v.u32 = x ∧ v.ovf = ovf

end Sys2Proof.Machine

namespace Sys2Proof

open Machine

/-! ### What each command names -/

/-- The V registers a command names as destinations (R62, R63); an odd TOI64 is no command and names none (R68). -/
def Instr.destV : Instr → List VReg
  | .fromint d _ => [d]
  | .fromb d _ _ => [d]
  | .fromrb d _ _ => [d]
  | .tob _ _ => []
  | .torb _ _ => []
  | .toint _ _ => []
  | .toi64 d _ => if evenReg d then [d, pairReg d] else []
  | .add d _ _ => [d]
  | .addh d _ _ => [d]
  | .sub d _ _ => [d]
  | .subh d _ _ => [d]
  | .mul d _ _ _ => [d]
  | .mulh d _ _ _ => [d]
  | .rdovf _ _ => []
  | .and d _ _ => [d]
  | .or d _ _ => [d]
  | .xor d _ _ => [d]
  | .maskh d _ _ => [d]
  | .rotl d _ _ => [d]
  | .rotr d _ _ => [d]
  | .shl d _ _ => [d]
  | .shr d _ _ => [d]
  | .rotli d _ _ => [d]
  | .rotri d _ _ => [d]
  | .shli d _ _ => [d]
  | .shri d _ _ => [d]
  | .cmph _ _ _ => []
  | .gth _ _ _ => []
  | .lth _ _ _ => []

/-- The S register a command names as destination (R27, R62). -/
def Instr.destS : Instr → List SReg
  | .fromint _ _ => []
  | .fromb _ _ _ => []
  | .fromrb _ _ _ => []
  | .tob _ _ => []
  | .torb _ _ => []
  | .toint d _ => [d]
  | .toi64 _ _ => []
  | .add _ _ _ => []
  | .addh _ _ _ => []
  | .sub _ _ _ => []
  | .subh _ _ _ => []
  | .mul _ _ _ _ => []
  | .mulh _ _ _ _ => []
  | .rdovf d _ => [d]
  | .and _ _ _ => []
  | .or _ _ _ => []
  | .xor _ _ _ => []
  | .maskh _ _ _ => []
  | .rotl _ _ _ => []
  | .rotr _ _ _ => []
  | .shl _ _ _ => []
  | .shr _ _ _ => []
  | .rotli _ _ _ => []
  | .rotri _ _ _ => []
  | .shli _ _ _ => []
  | .shri _ _ _ => []
  | .cmph d _ _ => [d]
  | .gth d _ _ => [d]
  | .lth d _ _ => [d]

/-- The bytes of BUF a command names as destinations (R42, R104, R105). -/
def Instr.stored : Instr → List BufAddr
  | .fromint _ _ => []
  | .fromb _ _ _ => []
  | .fromrb _ _ _ => []
  | .tob _ addr => quadAddrs addr
  | .torb _ addr => quadAddrs addr
  | .toint _ _ => []
  | .toi64 _ _ => []
  | .add _ _ _ => []
  | .addh _ _ _ => []
  | .sub _ _ _ => []
  | .subh _ _ _ => []
  | .mul _ _ _ _ => []
  | .mulh _ _ _ _ => []
  | .rdovf _ _ => []
  | .and _ _ _ => []
  | .or _ _ _ => []
  | .xor _ _ _ => []
  | .maskh _ _ _ => []
  | .rotl _ _ _ => []
  | .rotr _ _ _ => []
  | .shl _ _ _ => []
  | .shr _ _ _ => []
  | .rotli _ _ _ => []
  | .rotri _ _ _ => []
  | .shli _ _ _ => []
  | .shri _ _ _ => []
  | .cmph _ _ _ => []
  | .gth _ _ _ => []
  | .lth _ _ _ => []

/-- The S register a command reads as a host integer: the twelve commands of R200. -/
def Instr.hostInt : Instr → Option SReg
  | .fromint _ a => some a
  | .fromb _ _ _ => none
  | .fromrb _ _ _ => none
  | .tob _ _ => none
  | .torb _ _ => none
  | .toint _ _ => none
  | .toi64 _ _ => none
  | .add _ _ _ => none
  | .addh _ _ b => some b
  | .sub _ _ _ => none
  | .subh _ _ b => some b
  | .mul _ _ _ _ => none
  | .mulh _ _ b _ => some b
  | .rdovf _ _ => none
  | .and _ _ _ => none
  | .or _ _ _ => none
  | .xor _ _ _ => none
  | .maskh _ _ b => some b
  | .rotl _ _ b => some b
  | .rotr _ _ b => some b
  | .shl _ _ b => some b
  | .shr _ _ b => some b
  | .rotli _ _ _ => none
  | .rotri _ _ _ => none
  | .shli _ _ _ => none
  | .shri _ _ _ => none
  | .cmph _ _ b => some b
  | .gth _ _ b => some b
  | .lth _ _ b => some b

/-- The sequence length a command is given (R200, R201). -/
def Instr.seqLen : Instr → Option (Fin 16)
  | .fromint _ _ => none
  | .fromb _ _ len => some len
  | .fromrb _ _ len => some len
  | .tob _ _ => none
  | .torb _ _ => none
  | .toint _ _ => none
  | .toi64 _ _ => none
  | .add _ _ _ => none
  | .addh _ _ _ => none
  | .sub _ _ _ => none
  | .subh _ _ _ => none
  | .mul _ _ _ _ => none
  | .mulh _ _ _ _ => none
  | .rdovf _ _ => none
  | .and _ _ _ => none
  | .or _ _ _ => none
  | .xor _ _ _ => none
  | .maskh _ _ _ => none
  | .rotl _ _ _ => none
  | .rotr _ _ _ => none
  | .shl _ _ _ => none
  | .shr _ _ _ => none
  | .rotli _ _ _ => none
  | .rotri _ _ _ => none
  | .shli _ _ _ => none
  | .shri _ _ _ => none
  | .cmph _ _ _ => none
  | .gth _ _ _ => none
  | .lth _ _ _ => none

end Sys2Proof

namespace Sys2Proof.Machine

/-! ### What a transaction writes -/

/-- The command a transaction issues, if it issues one that runs (R33, R49, R233). -/
def HostEvent.command : HostEvent → Option Instr
  | .write addr width data => if addr = 0x148 ∧ width = 32 then (decode data).toOption else none
  | .read _ _ => none
  | .reset => none
  | .powerOn _ => none

/-- The transaction can give S[r] the kind 1: a write to SDATA[r], a write to SKIND with bit `r` set, or a command that names
S[r] as its destination (R27). -/
def HostEvent.SetsKind (e : HostEvent) (r : SReg) : Prop :=
  (∃ w, e = .write (BitVec.ofNat 12 (0x100 + 4 * r.val)) 32 w) ∨
  (∃ w, e = .write 0x140 32 w ∧ w.getLsbD r.val = true) ∨
  ∃ i, e.command = some i ∧ r ∈ i.destS

/-- The transaction issues a command that names V[r] as a destination (R24, R37). -/
def HostEvent.WritesV (e : HostEvent) (r : VReg) : Prop := ∃ i, e.command = some i ∧ r ∈ i.destV

/-! ### Comparing two states and two runs -/

/-- The two states differ at most in the `ovf` fields of value registers. -/
structure AgreeButOvf (s t : State) : Prop where
  his : ∀ r, (s.getV r).hi = (t.getV r).hi
  los : ∀ r, (s.getV r).lo = (t.getV r).lo
  sregs : ∀ r, s.getS r = t.getS r
  buf : s.buf = t.buf
  status : s.status = t.status
  cfg : s.cfg = t.cfg
  pending : s.pending = t.pending
  reads : s.reads = t.reads

/-- The two states differ at most in value registers. -/
structure AgreeButV (s t : State) : Prop where
  sregs : ∀ r, s.getS r = t.getS r
  buf : s.buf = t.buf
  status : s.status = t.status
  cfg : s.cfg = t.cfg
  pending : s.pending = t.pending
  reads : s.reads = t.reads

/-- The latency of the command the next step runs, if it runs one (R240). -/
def headLatency (s : State) : List Nat :=
  match s.pending with
  | [] => []
  | e :: _ => (commandLatency s.cfg e).toList

/-- The latencies of the commands run in the first `k` steps, in order: all that R240 lets a host see of time. -/
def runLatencies : Nat → State → List Nat
  | 0, _ => []
  | k + 1, s =>
    headLatency s ++
      match step s with
      | .next t => runLatencies k t
      | .fault _ => []
      | .refused _ => []

/-! ### Which operand lists are assembly -/

/-- What an operand of the assembly column is (R72, R73). -/
inductive OperandKind where
  /-- A value register. -/
  | v
  /-- A value register of even number, the destination of TOI64. -/
  | evenV
  /-- A host-scalar register. -/
  | s
  /-- A signed amount, -2048..2047. -/
  | amount
  /-- A W, 0..63. -/
  | width
  /-- An ADDR, 0..255. -/
  | addr
  /-- A LEN, 0..15. -/
  | len
  deriving DecidableEq, Repr

/-- The operand is of the kind: in the right register file, in the field's range, of even number (R73). -/
def OperandKind.fits : OperandKind → Operand → Bool
  | .v, .v _ => true
  | .evenV, .v r => r.val % 2 == 0
  | .s, .s _ => true
  | .amount, .imm n => decide (-2048 ≤ n ∧ n ≤ 2047)
  | .width, .imm n => decide (0 ≤ n ∧ n ≤ 63)
  | .addr, .imm n => decide (0 ≤ n ∧ n ≤ 255)
  | .len, .imm n => decide (0 ≤ n ∧ n ≤ 15)
  | _, _ => false

/-- The operands fit the kinds, one for one. -/
def OperandsFit (kinds : List OperandKind) (ops : List Operand) : Prop := List.Forall₂ (fun k o => k.fits o = true) kinds ops

/-- The assembly column of R72 for each mnemonic of R65, and the pseudo-instructions of R74. -/
def assemblyColumn : List (String × List OperandKind) := [
  ("FROMINT", [.v, .s]),
  ("FROMB", [.v, .addr, .len]),
  ("FROMRB", [.v, .addr, .len]),
  ("TOB", [.v, .addr]),
  ("TORB", [.v, .addr]),
  ("TOINT", [.s, .v]),
  ("TOI64", [.evenV, .v]),
  ("ADD", [.v, .v, .v]),
  ("ADDH", [.v, .v, .s]),
  ("SUB", [.v, .v, .v]),
  ("SUBH", [.v, .v, .s]),
  ("MUL", [.v, .v, .v, .width]),
  ("MULH", [.v, .v, .s, .width]),
  ("RDOVF", [.s, .v]),
  ("AND", [.v, .v, .v]),
  ("OR", [.v, .v, .v]),
  ("XOR", [.v, .v, .v]),
  ("MASKH", [.v, .v, .s]),
  ("ROTL", [.v, .v, .s]),
  ("ROTR", [.v, .v, .s]),
  ("SHL", [.v, .v, .s]),
  ("SHR", [.v, .v, .s]),
  ("ROTLI", [.v, .v, .amount]),
  ("ROTRI", [.v, .v, .amount]),
  ("SHLI", [.v, .v, .amount]),
  ("SHRI", [.v, .v, .amount]),
  ("CMPH", [.s, .v, .s]),
  ("GTH", [.s, .v, .s]),
  ("LTH", [.s, .v, .s]),
  ("MV", [.v, .v]),
  ("CLR", [.v]),
  ("FROMB", [.v, .addr]),
  ("FROMRB", [.v, .addr]),
  ("MUL", [.v, .v, .v]),
  ("MULH", [.v, .v, .s])]

/-- A command as R72 writes it: its mnemonic and its operands, destination first. -/
def writtenForm : Instr → String × List Operand
  | .fromint d a => ("FROMINT", [.v d, .s a])
  | .fromb d addr len => ("FROMB", [.v d, .imm addr.toNat, .imm len.val])
  | .fromrb d addr len => ("FROMRB", [.v d, .imm addr.toNat, .imm len.val])
  | .tob a addr => ("TOB", [.v a, .imm addr.toNat])
  | .torb a addr => ("TORB", [.v a, .imm addr.toNat])
  | .toint d a => ("TOINT", [.s d, .v a])
  | .toi64 d a => ("TOI64", [.v d, .v a])
  | .add d a b => ("ADD", [.v d, .v a, .v b])
  | .addh d a b => ("ADDH", [.v d, .v a, .s b])
  | .sub d a b => ("SUB", [.v d, .v a, .v b])
  | .subh d a b => ("SUBH", [.v d, .v a, .s b])
  | .mul d a b w => ("MUL", [.v d, .v a, .v b, .imm w.val])
  | .mulh d a b w => ("MULH", [.v d, .v a, .s b, .imm w.val])
  | .rdovf d a => ("RDOVF", [.s d, .v a])
  | .and d a b => ("AND", [.v d, .v a, .v b])
  | .or d a b => ("OR", [.v d, .v a, .v b])
  | .xor d a b => ("XOR", [.v d, .v a, .v b])
  | .maskh d a b => ("MASKH", [.v d, .v a, .s b])
  | .rotl d a b => ("ROTL", [.v d, .v a, .s b])
  | .rotr d a b => ("ROTR", [.v d, .v a, .s b])
  | .shl d a b => ("SHL", [.v d, .v a, .s b])
  | .shr d a b => ("SHR", [.v d, .v a, .s b])
  | .rotli d a c => ("ROTLI", [.v d, .v a, .imm c])
  | .rotri d a c => ("ROTRI", [.v d, .v a, .imm c])
  | .shli d a c => ("SHLI", [.v d, .v a, .imm c])
  | .shri d a c => ("SHRI", [.v d, .v a, .imm c])
  | .cmph d a b => ("CMPH", [.s d, .v a, .s b])
  | .gth d a b => ("GTH", [.s d, .v a, .s b])
  | .lth d a b => ("LTH", [.s d, .v a, .s b])

/-- A pseudo-instruction as R74 writes it. -/
def pseudoForm : Pseudo → String × List Operand
  | .mv d a => ("MV", [.v d, .v a])
  | .clr d => ("CLR", [.v d])
  | .fromb d addr => ("FROMB", [.v d, .imm addr.toNat])
  | .fromrb d addr => ("FROMRB", [.v d, .imm addr.toNat])
  | .mul d a b => ("MUL", [.v d, .v a, .v b])
  | .mulh d a b => ("MULH", [.v d, .v a, .s b])

end Sys2Proof.Machine
end

