-- ==== Sys2Proof/Certificates/Slice0/Obligations.lean ====
section
/-! DEFINITION. The statements about FWIU32 that the provers settle. Each docstring names the rules of spec/ it formalises;
the terms they are made of (Completes, Raises, Guarded, Frame, RowDecodes) are in Sys2Proof/Safety.lean. -/

open Sys2Proof Sys2Proof.Machine

/-! ### Encoding -/

/-- Words written out from R61, R65 and R75, one of each format, decode to the commands they stand for. -/
def Obligations.DecodeOfWrittenWords : Prop :=
  decode 0x01110000 = .ok (.fromint 1 1) ∧ decode 0x021004FD = .ok (.fromb 1 253 4) ∧
  decode 0x04020010 = .ok (.tob 2 0x10) ∧ decode 0x16430000 = .ok (.rdovf 4 3) ∧
  decode 0x07410000 = .ok (.toi64 4 1) ∧ decode 0x1243F000 = .ok (.sub 4 3 15) ∧
  decode 0x11215000 = .ok (.addh 2 1 5) ∧ decode 0x14312020 = .ok (.mul 3 1 2 32) ∧
  decode 0x38210010 = .ok (.rotli 2 1 16) ∧ decode 0x3A330FFF = .ok (.shli 3 3 (-1)) ∧
  decode 0x40312000 = .ok (.cmph 3 1 2)

/-- Decoding the word of a well-formed instruction gives it back, with every operand (R61 to R65, R75). -/
def Obligations.DecodeOfEncode : Prop :=
  ∀ i : Instr, i.WellFormed → decode (encode i) = .ok i

/-- A word that decodes is the word of the instruction it decodes to, and that instruction is well-formed: no bit of a word
is dropped (R60 to R66, R75). -/
def Obligations.EncodeOfDecode : Prop :=
  ∀ (w : Word) (i : Instr), decode w = .ok i → i.WellFormed ∧ encode i = w

/-- R71: at most one row of the opcode map matches a word; the word is that row's command, and no row means no command. -/
def Obligations.DecodingTotalAndUnambiguous : Prop :=
  ∀ w : Word,
    (opcodeMap.filter fun r => r.accepts w).length ≤ 1 ∧
    (∀ r ∈ opcodeMap, w &&& r.fmt.mask = r.matchWord → ∃ i, decode w = .ok i ∧ i.opc = r.opc ∧ i.fmt = r.fmt) ∧
    ((∀ r ∈ opcodeMap, w &&& r.fmt.mask ≠ r.matchWord) → ∃ e, decode w = .error e)

/-- R67: a word whose OPC is one of the unassigned values raises Illegal and changes nothing but STATUS. -/
def Obligations.UnassignedOpcodesRaiseIllegal : Prop :=
  ∀ (w : Word) (s : State),
    let o := (w >>> 24).toNat
    (o = 0 ∨ (0x08 ≤ o ∧ o ≤ 0x0F) ∨ (0x17 ≤ o ∧ o ≤ 0x1F) ∨ (0x24 ≤ o ∧ o ≤ 0x2F) ∨ (0x34 ≤ o ∧ o ≤ 0x37) ∨
      (0x3C ≤ o ∧ o ≤ 0x3F) ∨ (0x43 ≤ o ∧ o ≤ 0xFF)) →
    ∃ t, issue w s = .next t ∧ OnlyStatusChanged s t ∧ StatusRaised .illegal s t

/-- R66, R68: a word with an assigned OPC and a 1 in a must-be-zero bit of its format raises Illegal and changes nothing but
STATUS; a TOI64 word with an odd RD is one. -/
def Obligations.MustBeZeroBitsRaiseIllegal : Prop :=
  (∀ (w : Word) (s : State) (r : OpcodeRow), r ∈ opcodeMap → (w >>> 24).setWidth 8 = r.opc →
    w &&& (r.fmt.mask &&& 0x00FFFFFF) ≠ 0 →
    ∃ t, issue w s = .next t ∧ OnlyStatusChanged s t ∧ StatusRaised .illegal s t) ∧
  (∀ (w : Word) (s : State), (w >>> 24).toNat = 0x07 → w.getLsbD 20 = true →
    ∃ t, issue w s = .next t ∧ OnlyStatusChanged s t ∧ StatusRaised .illegal s t)

/-- R74: what each pseudo-instruction expands to, and the effect of the expansion. -/
def Obligations.PseudoInstructionEffects : Prop :=
  (∀ (d a : VReg) (s : State), Pseudo.expand (.mv d a) = .rotli d a 0 ∧
    Completes (.rotli d a 0) s [d] [] [] fun t =>
      (t.getV d).hi = (s.getV a).hi ∧ (t.getV d).lo = (s.getV a).lo ∧ (t.getV d).ovf = 0) ∧
  (∀ (d : VReg) (s : State), Pseudo.expand (.clr d) = .shli d d 32 ∧
    Completes (.shli d d 32) s [d] [] [] fun t => t.getV d = ⟨0, 0, 0⟩) ∧
  (∀ (d : VReg) (addr : BufAddr) (s : State), Pseudo.expand (.fromb d addr) = .fromb d addr 4 ∧
    Completes (.fromb d addr 4) s [d] [] [] fun t =>
      (t.getV d).u32 = s.byte addr ++ s.byte (addr + 1) ++ s.byte (addr + 2) ++ s.byte (addr + 3)) ∧
  (∀ (d : VReg) (addr : BufAddr) (s : State), Pseudo.expand (.fromrb d addr) = .fromrb d addr 4 ∧
    Completes (.fromrb d addr 4) s [d] [] [] fun t =>
      (t.getV d).u32 = s.byte (addr + 3) ++ s.byte (addr + 2) ++ s.byte (addr + 1) ++ s.byte addr) ∧
  (∀ (d a b : VReg) (s : State), Pseudo.expand (.mul d a b) = .mul d a b 0 ∧
    Completes (.mul d a b 0) s [d] [] [] fun t =>
      (t.getV d).u32 = mul32 (s.getV a).u32 (s.getV b).u32 s.cfg.mulZeroWidth) ∧
  ∀ (d a : VReg) (b : SReg) (s : State), Pseudo.expand (.mulh d a b) = .mulh d a b 0 ∧
    Guarded (.mulh d a b 0) b s fun n => Completes (.mulh d a b 0) s [d] [] [] fun t =>
      (t.getV d).u32 = mul32 (s.getV a).u32 n s.cfg.mulZeroWidth

/-- R72, R73, R74, on a mnemonic with its operands (the text around them is log 14's): the assembler accepts exactly the operand
lists that fit a row of the assembly column, so for every row a number outside its field, an odd destination of TOI64 and a
register of the wrong file are refused; what it accepts is the well-formed command, or the expansion of the pseudo-instruction,
with the very operands written; and every well-formed command and every pseudo-instruction is accepted. -/
def Obligations.AssemblerRefusesAndNeverTruncates : Prop :=
  (∀ (name : String) (ops : List Operand), (∃ i, assembleOps name ops = some i) ↔
    ∃ row ∈ assemblyColumn, row.1 = name ∧ OperandsFit row.2 ops) ∧
  (∀ (name : String) (ops : List Operand) (i : Instr), assembleOps name ops = some i →
    i.WellFormed ∧ (writtenForm i = (name, ops) ∨ ∃ p, pseudoForm p = (name, ops) ∧ p.expand = i)) ∧
  (∀ i : Instr, i.WellFormed → assembleOps (writtenForm i).1 (writtenForm i).2 = some i) ∧
  (∀ p : Pseudo, assembleOps (pseudoForm p).1 (pseudoForm p).2 = some p.expand) ∧
  (∀ row ∈ assemblyColumn, ∀ ops : List Operand, ops.length = row.2.length → ¬OperandsFit row.2 ops →
    assembleOps row.1 ops = none) ∧
  (∀ (d a : VReg) (c : Int), c < -2048 ∨ 2047 < c → ∀ name ∈ ["ROTLI", "ROTRI", "SHLI", "SHRI"],
    assembleOps name [.v d, .v a, .imm c] = none) ∧
  (∀ (d a b : VReg) (sb : SReg) (n : Int), n < 0 ∨ 63 < n →
    assembleOps "MUL" [.v d, .v a, .v b, .imm n] = none ∧ assembleOps "MULH" [.v d, .v a, .s sb, .imm n] = none) ∧
  (∀ (d : VReg) (n l : Int), (n < 0 ∨ 255 < n) ∨ (l < 0 ∨ 15 < l) → ∀ name ∈ ["FROMB", "FROMRB"],
    assembleOps name [.v d, .imm n, .imm l] = none) ∧
  (∀ (d : VReg) (n : Int), n < 0 ∨ 255 < n → ∀ name ∈ ["FROMB", "FROMRB", "TOB", "TORB"],
    assembleOps name [.v d, .imm n] = none) ∧
  (∀ d a : VReg, d.val % 2 = 1 → assembleOps "TOI64" [.v d, .v a] = none) ∧
  (∀ (d : SReg) (a b : VReg), assembleOps "ADD" [.s d, .v a, .v b] = none)

/-! ### The step and the host's transactions -/

/-- R33, R51, R76: when the host's oldest transaction is a CMD write of a word that decodes to `i`, the step runs `i` on the
state without that transaction. -/
def Obligations.StepRunsTheDecodedCommand : Prop :=
  ∀ (s : State) (w : Word) (rest : List HostEvent) (i : Instr),
    s.pending = .write 0x148 32 w :: rest → decode w = .ok i → step s = exec i { s with pending := rest }

/-- R33: a write of a word to CMD issues it as one command by R76, and a read of CMD returns 0 and changes nothing. -/
def Obligations.CmdIssuesAndReadsZero : Prop :=
  (∀ (s : State) (w : Word) (rest : List HostEvent),
    s.pending = .write 0x148 32 w :: rest → step s = issue w { s with pending := rest }) ∧
  (∀ (s : State) (rest : List HostEvent), s.pending = .read 0x148 32 :: rest →
    step s = .next { s with pending := rest, reads := s.reads ++ [0] })

/-- R217, and the model's own convention (log 5): with no transaction to serve, the unit is idle and holds all state. -/
def Obligations.IdleHoldsAllState : Prop :=
  ∀ s : State, s.pending = [] → step s = .next s

/-- R47, R49: a host read of BUF or SDATA returns the stored value and changes nothing. -/
def Obligations.HostReadsReturnTheStoredValue : Prop :=
  ∀ (s : State) (rest : List HostEvent),
    (∀ a : BufAddr, s.pending = .read (BitVec.ofNat 12 a.toNat) 8 :: rest →
      step s = .next { s with pending := rest, reads := s.reads ++ [(s.byte a).setWidth 32] }) ∧
    (∀ i : SReg, s.pending = .read (BitVec.ofNat 12 (0x100 + 4 * i.val)) 32 :: rest →
      step s = .next { s with pending := rest, reads := s.reads ++ [(s.getS i).data] })

/-- R27, R49: a host write of BUF[a] stores the byte and a host write of SDATA[i] sets the data and kind 1; nothing else
changes. -/
def Obligations.HostWritesStoreTheValue : Prop :=
  ∀ (s : State) (rest : List HostEvent) (w : Word), s.Inv →
    (∀ a : BufAddr, s.pending = .write (BitVec.ofNat 12 a.toNat) 8 w :: rest →
      ∃ t, step s = .next t ∧ t.byte a = w.setWidth 8 ∧ t.status = s.status ∧
        Frame [] [] [a] { s with pending := rest } t) ∧
    (∀ i : SReg, s.pending = .write (BitVec.ofNat 12 (0x100 + 4 * i.val)) 32 w :: rest →
      ∃ t, step s = .next t ∧ t.getS i = ⟨w, true⟩ ∧ t.status = s.status ∧
        Frame [] [i] [] { s with pending := rest } t)

/-- R32: SKIND shows the kind bits and writes them. -/
def Obligations.SkindIsAViewOfTheKindBits : Prop :=
  (∀ (s : State) (rest : List HostEvent), s.pending = .read 0x140 32 :: rest →
    ∃ x : Word, step s = .next { s with pending := rest, reads := s.reads ++ [x] } ∧
      (∀ i : SReg, x.getLsbD i.val = (s.getS i).kind) ∧ x.extractLsb' 16 16 = 0) ∧
  (∀ (s : State) (rest : List HostEvent) (w : Word), s.pending = .write 0x140 32 w :: rest →
    ∃ t, step s = .next t ∧ (∀ i : SReg, t.getS i = ⟨(s.getS i).data, w.getLsbD i.val⟩) ∧ t.status = s.status ∧
      Frame [] (List.finRange 16) [] { s with pending := rest } t) ∧
  (∀ rest : List HostEvent, step { State.reset with pending := .read 0x140 32 :: rest } =
    .next { State.reset with pending := rest, reads := [0x00000000] })

/-- R31: a host write to STATUS clears the SEEN bits whose position is 1 and does nothing else; a host read returns the
fields in their places. -/
def Obligations.StatusReadsAndClearsSeenBits : Prop :=
  (∀ (s : State) (rest : List HostEvent) (w : Word), s.pending = .write 0x144 32 w :: rest →
    step s = .next { s with pending := rest, status :=
      ⟨s.status.last, if w.getLsbD 8 then false else s.status.rangeSeen,
        if w.getLsbD 9 then false else s.status.typeSeen, if w.getLsbD 10 then false else s.status.illegalSeen⟩ }) ∧
  (∀ (s : State) (rest : List HostEvent), s.pending = .read 0x144 32 :: rest →
    ∃ x : Word, step s = .next { s with pending := rest, reads := s.reads ++ [x] } ∧
      x.toNat = 1024 * s.status.illegalSeen.toNat + 512 * s.status.typeSeen.toNat + 256 * s.status.rangeSeen.toNat +
        (match s.status.last with | .ok => 0 | .rangeError => 1 | .typeError => 2 | .illegal => 3))

/-- R30: whatever the outcome, LAST reads as 0 to 3, and the reserved bits 7:4 and 31:11 of STATUS read as 0. -/
def Obligations.StatusReservedBitsReadZero : Prop :=
  ∀ st : Status, (st.word.extractLsb' 0 4).toNat ≤ 3 ∧ ∀ k : Nat, (4 ≤ k ∧ k ≤ 7) ∨ 11 ≤ k → st.word.getLsbD k = false

/-- R50: a transaction that matches no row of the host map is ignored if it is a write, returns 0 if it is a read, and
changes no state. -/
def Obligations.ReservedTransactionsAreIgnored : Prop :=
  ∀ (s : State) (rest : List HostEvent) (addr : HostAddr) (width : Nat),
    ¬(width = 8 ∧ addr.toNat ≤ 0xFF) →
    ¬(width = 32 ∧ ((∃ i : SReg, addr.toNat = 0x100 + 4 * i.val) ∨ addr.toNat = 0x140 ∨ addr.toNat = 0x144 ∨
      addr.toNat = 0x148)) →
    (∀ w : Word, s.pending = .write addr width w :: rest → step s = .next { s with pending := rest }) ∧
    (s.pending = .read addr width :: rest → step s = .next { s with pending := rest, reads := s.reads ++ [0] })

/-- R24: no host transaction other than a CMD write and a reset changes a value register, and no host read depends on one:
on states that differ only in value registers the same transaction does the same to everything else. -/
def Obligations.HostNeverReachesValueRegisters : Prop :=
  (∀ (s t : State) (e : HostEvent) (rest : List HostEvent), s.pending = e :: rest → step s = .next t →
    (∀ w, e ≠ .write 0x148 32 w) → e ≠ .reset → (∀ o, e ≠ .powerOn o) → ∀ r, t.getV r = s.getV r) ∧
  (∀ (s s' t t' : State) (e : HostEvent) (rest : List HostEvent), AgreeButV s s' → s.pending = e :: rest →
    (∀ w, e ≠ .write 0x148 32 w) → step s = .next t → step s' = .next t' → AgreeButV t t')

/-! ### Reset -/

/-- R38: the reset state holds the stated values, and in it a command that reads a host integer raises TypeError. In every run
from a reset, whatever the transactions, an S register that no transaction of the run has given the kind 1 (R26, R27: the host
through SDATA or SKIND, or a command) has kind 0 and a command that reads it raises TypeError, and a V register that no command
of the run has named as its destination is 0 with ovf 0. -/
def Obligations.ResetStateValues : Prop :=
  (∀ r, State.reset.getV r = ⟨0, 0, 0⟩) ∧ (∀ r, State.reset.getS r = ⟨0, false⟩) ∧
  (∀ a, State.reset.byte a = 0x00) ∧ State.reset.status.word = 0x00000000 ∧
  (∀ (i : Instr) (r : SReg), i.hostInt = some r → Raises .typeError i State.reset) ∧
  (∀ (k : Nat) (s t : State) (r : SReg), Sys2Proof.core.run k s.resetUnit = .next t →
    (∀ e ∈ s.pending.take k, ¬e.SetsKind r) →
    (t.getS r).kind = false ∧ ∀ i : Instr, i.hostInt = some r → Raises .typeError i t) ∧
  (∀ (k : Nat) (s t : State) (r : VReg), Sys2Proof.core.run k s.resetUnit = .next t →
    (∀ e ∈ s.pending.take k, ¬e.WritesV r) → t.getV r = ⟨0, 0, 0⟩)

/-- R230, R233: RESET, a power-on reset between transactions, and one that arrives while the CMD write of any word is in
progress all leave every piece of state at its reset value, whatever it was, in one step, and the next transaction is
accepted. -/
def Obligations.ResetLeavesNothingOfThePast : Prop :=
  ∀ (s : State) (e : HostEvent) (rest : List HostEvent), s.pending = e :: rest →
    (e = .reset ∨ ∃ o : Option Word, e = .powerOn o) →
    ∃ t, step s = .next t ∧ t.pending = rest ∧ (∀ r, t.getV r = ⟨0, 0, 0⟩) ∧ (∀ r, t.getS r = ⟨0, false⟩) ∧
      (∀ a, t.byte a = 0x00) ∧ t.status = ⟨.ok, false, false, false⟩ ∧ t.buf = State.reset.buf

/-! ### Invariants and whole runs -/

/-- The invariant holds at reset: BUF is in the canonical form, which is the model's own (log 11, DESIGN CHOICE: addresses rising
and below 256, no listed 0x00; no rule of the spec speaks of it), and MUL_ZERO_WIDTH is in range (R7). -/
def Obligations.ResetStateMeetsInv : Prop := State.reset.Inv

/-- Every step from a state that meets the invariant leads to one that meets it: BUF keeps the canonical form, which is the
model's own (log 11, DESIGN CHOICE; no rule of the spec speaks of it), and MUL_ZERO_WIDTH stays in range (R7). -/
def Obligations.StepKeepsInv : Prop :=
  ∀ s t : State, s.Inv → step s = .next t → t.Inv

/-- R231: no command, host transaction or reset changes MUL_ZERO_WIDTH, however long the run. -/
def Obligations.RunKeepsMulZeroWidth : Prop :=
  ∀ (k : Nat) (s t : State), Sys2Proof.core.run k s = .next t → t.cfg.mulZeroWidth = s.cfg.mulZeroWidth

/-- R71, R236: no run stops with a fault or a refusal, and a run of as many steps as there are transactions has served them
all. -/
def Obligations.RunsServeEveryTransaction : Prop :=
  ∀ (k : Nat) (s : State), ∃ t, Sys2Proof.core.run k s = .next t ∧ t.pending = s.pending.drop k

/-! ### Errors -/

/-- R204: when the command of a word raises an error, LAST is its code, its SEEN bit is 1, the other SEEN bits keep their
values and nothing else changes. -/
def Obligations.ErrorsWriteOnlyStatus : Prop :=
  ∀ (w : Word) (s t : State), issue w s = .next t → t.status.last ≠ .ok →
    OnlyStatusChanged s t ∧ ∃ e : ErrorKind, StatusRaised e s t

/-- R205: a command that completes without an error sets LAST to OK and leaves the SEEN bits; so a SEEN bit that is set stays
set in every step that is neither a host write to STATUS nor a reset. -/
def Obligations.SeenBitsAreSticky : Prop :=
  (∀ (w : Word) (s t : State), issue w s = .next t → t.status.last = .ok → StatusCompleted s t) ∧
  (∀ s t : State, step s = .next t →
    (∀ (w : Word) (rest : List HostEvent), s.pending ≠ .write 0x144 32 w :: rest) →
    (∀ rest : List HostEvent, s.pending ≠ .reset :: rest) →
    (∀ (o : Option Word) (rest : List HostEvent), s.pending ≠ .powerOn o :: rest) →
    (s.status.rangeSeen = true → t.status.rangeSeen = true) ∧ (s.status.typeSeen = true → t.status.typeSeen = true) ∧
    (s.status.illegalSeen = true → t.status.illegalSeen = true))

/-- R201, R202, R206, R207: which outcome the command of a decoded word ends with: RangeError exactly for FROMB and FROMRB with
a length other than 4, TypeError exactly when the host integer it reads has kind 0, Illegal never, and OK otherwise. -/
def Obligations.OutcomeOfEachCommand : Prop :=
  ∀ (w : Word) (i : Instr) (s : State), decode w = .ok i → ∃ t, issue w s = .next t ∧
    (t.status.last = .rangeError ↔ ∃ (d : VReg) (addr : BufAddr) (len : Fin 16), (i = .fromb d addr len ∨ i = .fromrb d addr len) ∧ len ≠ 4) ∧
    (t.status.last = .typeError ↔ ∃ r, i.hostInt = some r ∧ (s.getS r).kind = false) ∧
    t.status.last ≠ .illegal

/-- R203: a word raises Illegal exactly when no row of the opcode map matches it, and then nothing but STATUS changes. -/
def Obligations.IllegalExactlyForUnmatchedWords : Prop :=
  ∀ (w : Word) (s : State), ∃ t, issue w s = .next t ∧
    (t.status.last = .illegal ↔ ∀ r ∈ opcodeMap, w &&& r.fmt.mask ≠ r.matchWord) ∧
    (t.status.last = .illegal → OnlyStatusChanged s t ∧ StatusRaised .illegal s t)

/-! ### What commands may change, and what may flow where -/

/-- R37: no command changes a V register, an S register or a byte of BUF that it does not name as a destination. -/
def Obligations.CommandsWriteOnlyTheirDestinations : Prop :=
  ∀ (i : Instr) (s t : State), exec i s = .next t → Frame i.destV i.destS i.stored s t

/-- R22, R23, R129: `ovf` never reaches a logical value, a comparison, BUF or STATUS: of two states that agree but for `ovf`, a
command other than RDOVF makes two states that agree but for `ovf`. -/
def Obligations.OvfReachesNothingButRdovf : Prop :=
  ∀ (i : Instr) (s s' t t' : State), AgreeButOvf s s' → (∀ (d : SReg) (a : VReg), i ≠ .rdovf d a) →
    exec i s = .next t → exec i s' = .next t' → AgreeButOvf t t'

/-- R7, R240: every latency is positive, and the latencies of a run's commands depend on the host's transactions and
MUL_ZERO_WIDTH alone, never on registers, BUF, STATUS or the outcomes. -/
def Obligations.LatenciesDependOnWordsOnly : Prop :=
  (∀ (cfg : Config) (w : Word), 0 < cfg.lat w) ∧
  (∀ (k : Nat) (s s' : State), s.pending = s'.pending → s.cfg = s'.cfg → runLatencies k s = runLatencies k s')

/-! ### Construction, conversion and serialization -/

/-- R101: FROMINT. -/
def Obligations.FromintResult : Prop :=
  RowDecodes 0x01000000 0xFF00FFFF (fun w => .fromint (rd w) (ra w)) ∧
  ∀ (d : VReg) (a : SReg) (s : State), Guarded (.fromint d a) a s fun n =>
    Completes (.fromint d a) s [d] [] [] fun t =>
      (t.getV d).hi = n.extractLsb' 16 16 ∧ (t.getV d).lo = n.extractLsb' 0 16 ∧ (t.getV d).ovf = 0

/-- R102: FROMB, big-endian, with the wrap modulo 256 of R41. -/
def Obligations.FrombResult : Prop :=
  RowDecodes 0x02000000 0xFF0FF000 (fun w => .fromb (rd w) (addrField w) (lenField w)) ∧
  (∀ (d : VReg) (addr : BufAddr) (len : Fin 16) (s : State), len ≠ 4 → Raises .rangeError (.fromb d addr len) s) ∧
  ∀ (d : VReg) (addr : BufAddr) (s : State), Completes (.fromb d addr 4) s [d] [] [] fun t =>
    (t.getV d).hi = s.byte addr ++ s.byte (addr + 1) ∧ (t.getV d).lo = s.byte (addr + 2) ++ s.byte (addr + 3) ∧
    (t.getV d).ovf = 0

/-- R103: FROMRB, the full reversal. -/
def Obligations.FromrbResult : Prop :=
  RowDecodes 0x03000000 0xFF0FF000 (fun w => .fromrb (rd w) (addrField w) (lenField w)) ∧
  (∀ (d : VReg) (addr : BufAddr) (len : Fin 16) (s : State), len ≠ 4 → Raises .rangeError (.fromrb d addr len) s) ∧
  ∀ (d : VReg) (addr : BufAddr) (s : State), Completes (.fromrb d addr 4) s [d] [] [] fun t =>
    (t.getV d).hi = s.byte (addr + 3) ++ s.byte (addr + 2) ∧ (t.getV d).lo = s.byte (addr + 1) ++ s.byte addr ∧
    (t.getV d).ovf = 0

/-- R104: TOB stores the four bytes at `quadAddrs addr`, most significant first, and no other byte changes. -/
def Obligations.TobResult : Prop :=
  RowDecodes 0x04000000 0xFFF0FF00 (fun w => .tob (ra w) (addrField w)) ∧
  ∀ (a : VReg) (addr : BufAddr) (s : State), s.Inv → Completes (.tob a addr) s [] [] (quadAddrs addr) fun t =>
    quadAddrs addr = [addr, addr + 1, addr + 2, addr + 3] ∧
    t.byte addr ++ t.byte (addr + 1) = (s.getV a).hi ∧ t.byte (addr + 2) ++ t.byte (addr + 3) = (s.getV a).lo

/-- R105: TORB stores the four bytes at `quadAddrs addr`, least significant first, and no other byte changes. -/
def Obligations.TorbResult : Prop :=
  RowDecodes 0x05000000 0xFFF0FF00 (fun w => .torb (ra w) (addrField w)) ∧
  ∀ (a : VReg) (addr : BufAddr) (s : State), s.Inv → Completes (.torb a addr) s [] [] (quadAddrs addr) fun t =>
    quadAddrs addr = [addr, addr + 1, addr + 2, addr + 3] ∧
    t.byte (addr + 3) ++ t.byte (addr + 2) = (s.getV a).hi ∧ t.byte (addr + 1) ++ t.byte addr = (s.getV a).lo

/-- R106: TOINT. -/
def Obligations.TointResult : Prop :=
  RowDecodes 0x06000000 0xFF00FFFF (fun w => .toint (rd w) (ra w)) ∧
  ∀ (d : SReg) (a : VReg) (s : State), Completes (.toint d a) s [] [d] [] fun t =>
    (t.getS d).data.toNat = (s.getV a).hi.toNat * 65536 + (s.getV a).lo.toNat ∧ (t.getS d).kind = true

/-- R107: TOI64, for every source register, one of the pair among them; the pair holds the sign extension to 64 bits. The clause
about an odd destination is the model's own (log 8, DEDUCED): R68 and R107 speak of the word, which no decoding reaches, and
MustBeZeroBitsRaiseIllegal states that; here it is said of the term that no word decodes to. -/
def Obligations.Toi64Result : Prop :=
  RowDecodes 0x07000000 0xFF10FFFF (fun w => .toi64 (rd w) (ra w)) ∧
  (∀ (d a : VReg) (s : State), d.val % 2 = 1 → Raises .illegal (.toi64 d a) s) ∧
  ∀ (d a : VReg) (s : State), d.val % 2 = 0 → Completes (.toi64 d a) s [d, d + 1] [] [] fun t =>
    ((t.getV d).u32 ++ (t.getV (d + 1)).u32 : BitVec 64) = (s.getV a).u32.signExtend 64 ∧
    (t.getV d).ovf = 0 ∧ (t.getV (d + 1)).ovf = 0

/-- R108: the byte round trips, in both orders, on a BUF in its canonical form: bytes to value and back leaves BUF as it was,
and value to bytes and back gives a value-equal value. -/
def Obligations.ByteRoundTrips : Prop :=
  ∀ (d a : VReg) (addr : BufAddr) (s t u : State), s.Inv →
    (exec (.fromb d addr 4) s = .next t → exec (.tob d addr) t = .next u → ∀ p, u.byte p = s.byte p) ∧
    (exec (.fromrb d addr 4) s = .next t → exec (.torb d addr) t = .next u → ∀ p, u.byte p = s.byte p) ∧
    (exec (.tob a addr) s = .next t → exec (.fromb d addr 4) t = .next u →
      (u.getV d).hi = (s.getV a).hi ∧ (u.getV d).lo = (s.getV a).lo) ∧
    (exec (.torb a addr) s = .next t → exec (.fromrb d addr 4) t = .next u →
      (u.getV d).hi = (s.getV a).hi ∧ (u.getV d).lo = (s.getV a).lo)

/-- R45: a value written with TOB and read back with FROMRB at the same address is the 32-bit byte swap of the original. -/
def Obligations.TobThenFromrbSwapsBytes : Prop :=
  ∀ (d a : VReg) (addr : BufAddr) (s t u : State), s.Inv →
    exec (.tob a addr) s = .next t → exec (.fromrb d addr 4) t = .next u →
    (u.getV d).u32 = (s.getV a).lo.extractLsb' 0 8 ++ (s.getV a).lo.extractLsb' 8 8 ++
      (s.getV a).hi.extractLsb' 0 8 ++ (s.getV a).hi.extractLsb' 8 8

/-- R109: FROMINT then TOINT gives back the host integer. -/
def Obligations.HostIntegerRoundTrip : Prop :=
  ∀ (d : SReg) (v : VReg) (a : SReg) (n : Word) (s : State), s.getS a = ⟨n, true⟩ →
    ∃ t u, exec (.fromint v a) s = .next t ∧ exec (.toint d v) t = .next u ∧ (u.getS d).data = n

/-! ### Arithmetic -/

/-- R121 with R120's closed form: ADD wraps modulo 2^32 and accumulates the final carry. -/
def Obligations.AddResult : Prop :=
  RowDecodes 0x10000000 0xFF000FFF (fun w => .add (rd w) (ra w) (rb w)) ∧
  ∀ (d a b : VReg) (s : State), Completes (.add d a b) s [d] [] [] fun t =>
    (t.getV d).Is ((s.getV a).u32 + (s.getV b).u32) ((s.getV a).ovf + (s.getV b).ovf +
      if 2 ^ 32 ≤ (s.getV a).u32.toNat + (s.getV b).u32.toNat then 1 else 0)

/-- R122: ADDH, whose synthesized operand has ovf 0. -/
def Obligations.AddhResult : Prop :=
  RowDecodes 0x11000000 0xFF000FFF (fun w => .addh (rd w) (ra w) (rb w)) ∧
  ∀ (d a : VReg) (b : SReg) (s : State), Guarded (.addh d a b) b s fun n =>
    Completes (.addh d a b) s [d] [] [] fun t =>
      (t.getV d).Is ((s.getV a).u32 + n) ((s.getV a).ovf + if 2 ^ 32 ≤ (s.getV a).u32.toNat + n.toNat then 1 else 0)

/-- R124 and R125 with R123's closed form: SUB and SUBH wrap modulo 2^32 and write ovf 0. -/
def Obligations.SubAndSubhResults : Prop :=
  RowDecodes 0x12000000 0xFF000FFF (fun w => .sub (rd w) (ra w) (rb w)) ∧
  RowDecodes 0x13000000 0xFF000FFF (fun w => .subh (rd w) (ra w) (rb w)) ∧
  (∀ (d a b : VReg) (s : State), Completes (.sub d a b) s [d] [] [] fun t =>
    (t.getV d).Is ((s.getV a).u32 - (s.getV b).u32) 0) ∧
  ∀ (d a : VReg) (b : SReg) (s : State), Guarded (.subh d a b) b s fun n =>
    Completes (.subh d a b) s [d] [] [] fun t => (t.getV d).Is ((s.getV a).u32 - n) 0

/-- R126: the multiplier's K iterations give `(x * (n mod 2^min(K, 32))) mod 2^32`, and the least-significant-first form gives
the same. -/
def Obligations.MultiplierClosedForm : Prop :=
  ∀ (x n : Word) (k : Nat), (mul32 x n k).toNat = x.toNat * (n.toNat % 2 ^ min k 32) % 2 ^ 32 ∧ mulLsb32 x n k = mul32 x n k

/-- R127: MUL, with K = MUL_ZERO_WIDTH for W = 0 and K = W otherwise. -/
def Obligations.MulResult : Prop :=
  RowDecodes 0x14000000 0xFF000FC0 (fun w => .mul (rd w) (ra w) (rb w) (widthField w)) ∧
  ∀ (d a b : VReg) (w : Fin 64) (s : State), Completes (.mul d a b w) s [d] [] [] fun t =>
    (t.getV d).u32.toNat = (s.getV a).u32.toNat *
      ((s.getV b).u32.toNat % 2 ^ min (if w.val = 0 then s.cfg.mulZeroWidth else w.val) 32) % 2 ^ 32 ∧
    (t.getV d).ovf = 0

/-- R128: MULH. -/
def Obligations.MulhResult : Prop :=
  RowDecodes 0x15000000 0xFF000FC0 (fun w => .mulh (rd w) (ra w) (rb w) (widthField w)) ∧
  ∀ (d a : VReg) (b : SReg) (w : Fin 64) (s : State), Guarded (.mulh d a b w) b s fun n =>
    Completes (.mulh d a b w) s [d] [] [] fun t =>
      (t.getV d).u32.toNat = (s.getV a).u32.toNat *
        (n.toNat % 2 ^ min (if w.val = 0 then s.cfg.mulZeroWidth else w.val) 32) % 2 ^ 32 ∧
      (t.getV d).ovf = 0

/-- R131: with K of 32 or more, MUL, and MULH with kind 1, give the low 32 bits of the product of the operands read as signed
numbers, at every sign combination; and multiplying by zero gives zero at every K. -/
def Obligations.MulAtEverySign : Prop :=
  (∀ (d a b : VReg) (w : Fin 64) (s t : State), exec (.mul d a b w) s = .next t →
    (32 ≤ (if w.val = 0 then s.cfg.mulZeroWidth else w.val) →
      (t.getV d).u32 = BitVec.ofInt 32 ((s.getV a).u32.toInt * (s.getV b).u32.toInt)) ∧
    ((s.getV a).u32 = 0 ∨ (s.getV b).u32 = 0 → (t.getV d).u32 = 0)) ∧
  ∀ (d a : VReg) (b : SReg) (w : Fin 64) (s t : State), (s.getS b).kind = true → exec (.mulh d a b w) s = .next t →
    (32 ≤ (if w.val = 0 then s.cfg.mulZeroWidth else w.val) →
      (t.getV d).u32 = BitVec.ofInt 32 ((s.getV a).u32.toInt * (s.getS b).data.toInt)) ∧
    ((s.getV a).u32 = 0 ∨ (s.getS b).data = 0 → (t.getV d).u32 = 0)

/-- R129: RDOVF. -/
def Obligations.RdovfResult : Prop :=
  RowDecodes 0x16000000 0xFF00FFFF (fun w => .rdovf (rd w) (ra w)) ∧
  ∀ (d : SReg) (a : VReg) (s : State), Completes (.rdovf d a) s [] [d] [] fun t => t.getS d = ⟨(s.getV a).ovf, true⟩

/-! ### Bitwise -/

/-- R140, R141, R142, R144: AND, OR and XOR, limb by limb and on `ovf` too. -/
def Obligations.BitwiseResults : Prop :=
  RowDecodes 0x20000000 0xFF000FFF (fun w => .and (rd w) (ra w) (rb w)) ∧
  RowDecodes 0x21000000 0xFF000FFF (fun w => .or (rd w) (ra w) (rb w)) ∧
  RowDecodes 0x22000000 0xFF000FFF (fun w => .xor (rd w) (ra w) (rb w)) ∧
  ∀ (d a b : VReg) (s : State),
    (Completes (.and d a b) s [d] [] [] fun t =>
      (t.getV d).Is ((s.getV a).u32 &&& (s.getV b).u32) ((s.getV a).ovf &&& (s.getV b).ovf)) ∧
    (Completes (.or d a b) s [d] [] [] fun t =>
      (t.getV d).Is ((s.getV a).u32 ||| (s.getV b).u32) ((s.getV a).ovf ||| (s.getV b).ovf)) ∧
    (Completes (.xor d a b) s [d] [] [] fun t =>
      (t.getV d).Is ((s.getV a).u32 ^^^ (s.getV b).u32) ((s.getV a).ovf ^^^ (s.getV b).ovf))

/-- R143: MASKH. -/
def Obligations.MaskhResult : Prop :=
  RowDecodes 0x23000000 0xFF000FFF (fun w => .maskh (rd w) (ra w) (rb w)) ∧
  ∀ (d a : VReg) (b : SReg) (s : State), Guarded (.maskh d a b) b s fun m =>
    Completes (.maskh d a b) s [d] [] [] fun t => (t.getV d).Is ((s.getV a).u32 &&& m) 0

/-! ### Rotate and shift -/

/-- R151: the limb-level rotation equals `((X << k) | (X >> (32 - k))) mod 2^32` with k = c mod 32, for every signed c. -/
def Obligations.RotateLeftClosedForm : Prop :=
  ∀ (v : Value) (c : Int), rotl32 v c = (v.u32 <<< (c % 32).toNat) ||| (v.u32 >>> (32 - (c % 32).toNat))

/-- R152: `rotr32` and its closed form, and a left rotation undoes a right rotation by the same signed amount. -/
def Obligations.RotateRightUndoneByRotateLeft : Prop :=
  ∀ (v : Value) (c : Int),
    rotr32 v c = rotl32 v ((32 - c % 32) % 32) ∧
    rotr32 v c = (v.u32 >>> (c % 32).toNat) ||| (v.u32 <<< (32 - (c % 32).toNat)) ∧
    ∀ w : Value, w.u32 = rotr32 v c → rotl32 w c = v.u32

/-- R155, R156: ROTL and ROTR by a host integer read as signed. -/
def Obligations.RotateByRegisterResults : Prop :=
  RowDecodes 0x30000000 0xFF000FFF (fun w => .rotl (rd w) (ra w) (rb w)) ∧
  RowDecodes 0x31000000 0xFF000FFF (fun w => .rotr (rd w) (ra w) (rb w)) ∧
  ∀ (d a : VReg) (b : SReg) (s : State),
    (Guarded (.rotl d a b) b s fun n => Completes (.rotl d a b) s [d] [] [] fun t =>
      (t.getV d).Is ((s.getV a).u32.rotateLeft (n.toInt % 32).toNat) 0) ∧
    (Guarded (.rotr d a b) b s fun n => Completes (.rotr d a b) s [d] [] [] fun t =>
      (t.getV d).Is ((s.getV a).u32.rotateRight (n.toInt % 32).toNat) 0)

/-- R159, R160: ROTLI and ROTRI by a signed 12-bit amount. -/
def Obligations.RotateByImmediateResults : Prop :=
  RowDecodes 0x38000000 0xFF00F000 (fun w => .rotli (rd w) (ra w) (amountField w)) ∧
  RowDecodes 0x39000000 0xFF00F000 (fun w => .rotri (rd w) (ra w) (amountField w)) ∧
  ∀ (d a : VReg) (c : Int) (s : State),
    (Completes (.rotli d a c) s [d] [] [] fun t => (t.getV d).Is ((s.getV a).u32.rotateLeft (c % 32).toNat) 0) ∧
    (Completes (.rotri d a c) s [d] [] [] fun t => (t.getV d).Is ((s.getV a).u32.rotateRight (c % 32).toNat) 0)

/-- R157, R158, R153, R154: SHL and SHR by a host integer read as signed: the sign first, then modulo 64, and 0 from 32 on. -/
def Obligations.ShiftByRegisterResults : Prop :=
  RowDecodes 0x32000000 0xFF000FFF (fun w => .shl (rd w) (ra w) (rb w)) ∧
  RowDecodes 0x33000000 0xFF000FFF (fun w => .shr (rd w) (ra w) (rb w)) ∧
  ∀ (d a : VReg) (b : SReg) (s : State),
    (Guarded (.shl d a b) b s fun n => Completes (.shl d a b) s [d] [] [] fun t =>
      (t.getV d).u32.toNat = (if 0 ≤ n.toInt then (s.getV a).u32.toNat * 2 ^ (n.toInt % 64).toNat % 2 ^ 32
        else (s.getV a).u32.toNat / 2 ^ (-n.toInt % 64).toNat) ∧ (t.getV d).ovf = 0) ∧
    (Guarded (.shr d a b) b s fun n => Completes (.shr d a b) s [d] [] [] fun t =>
      (t.getV d).u32.toNat = (if 0 ≤ n.toInt then (s.getV a).u32.toNat / 2 ^ (n.toInt % 64).toNat
        else (s.getV a).u32.toNat * 2 ^ (-n.toInt % 64).toNat % 2 ^ 32) ∧ (t.getV d).ovf = 0)

/-- R161, R162, R153, R154: SHLI and SHRI by a signed 12-bit amount. -/
def Obligations.ShiftByImmediateResults : Prop :=
  RowDecodes 0x3A000000 0xFF00F000 (fun w => .shli (rd w) (ra w) (amountField w)) ∧
  RowDecodes 0x3B000000 0xFF00F000 (fun w => .shri (rd w) (ra w) (amountField w)) ∧
  ∀ (d a : VReg) (c : Int) (s : State),
    (Completes (.shli d a c) s [d] [] [] fun t =>
      (t.getV d).u32.toNat = (if 0 ≤ c then (s.getV a).u32.toNat * 2 ^ (c % 64).toNat % 2 ^ 32
        else (s.getV a).u32.toNat / 2 ^ (-c % 64).toNat) ∧ (t.getV d).ovf = 0) ∧
    (Completes (.shri d a c) s [d] [] [] fun t =>
      (t.getV d).u32.toNat = (if 0 ≤ c then (s.getV a).u32.toNat / 2 ^ (c % 64).toNat
        else (s.getV a).u32.toNat * 2 ^ (-c % 64).toNat % 2 ^ 32) ∧ (t.getV d).ovf = 0)

/-! ### Compare -/

/-- R171 with R170's closed form: CMPH gives -1, 0 or +1 in the unsigned order. -/
def Obligations.CmphResult : Prop :=
  RowDecodes 0x40000000 0xFF000FFF (fun w => .cmph (rd w) (ra w) (rb w)) ∧
  ∀ (d : SReg) (a : VReg) (b : SReg) (s : State), Guarded (.cmph d a b) b s fun n =>
    Completes (.cmph d a b) s [] [d] [] fun t =>
      (t.getS d).kind = true ∧ (t.getS d).data =
        if (s.getV a).u32.toNat < n.toNat then 0xFFFFFFFF else if (s.getV a).u32 = n then 0 else 1

/-- R172, R173 with R170's closed form: GTH and LTH give 1 or 0 in the unsigned order. -/
def Obligations.GthAndLthResults : Prop :=
  RowDecodes 0x41000000 0xFF000FFF (fun w => .gth (rd w) (ra w) (rb w)) ∧
  RowDecodes 0x42000000 0xFF000FFF (fun w => .lth (rd w) (ra w) (rb w)) ∧
  ∀ (d : SReg) (a : VReg) (b : SReg) (s : State),
    (Guarded (.gth d a b) b s fun n => Completes (.gth d a b) s [] [d] [] fun t =>
      (t.getS d).kind = true ∧ (t.getS d).data = if n.toNat < (s.getV a).u32.toNat then 1 else 0) ∧
    (Guarded (.lth d a b) b s fun n => Completes (.lth d a b) s [] [d] [] fun t =>
      (t.getS d).kind = true ∧ (t.getS d).data = if (s.getV a).u32.toNat < n.toNat then 1 else 0)

/-- R174: of GTH gives 1, LTH gives 1 and CMPH gives 0 exactly one holds, it matches the unsigned order, and values that differ
only in `ovf` compare identically. -/
def Obligations.ComparatorTotality : Prop :=
  (∀ (d : SReg) (a : VReg) (b : SReg) (s g l c : State), (s.getS b).kind = true →
    exec (.gth d a b) s = .next g → exec (.lth d a b) s = .next l → exec (.cmph d a b) s = .next c →
    ((g.getS d).data = 1 ↔ (s.getS b).data.toNat < (s.getV a).u32.toNat) ∧
    ((l.getS d).data = 1 ↔ (s.getV a).u32.toNat < (s.getS b).data.toNat) ∧
    ((c.getS d).data = 0 ↔ (s.getV a).u32 = (s.getS b).data) ∧
    (((g.getS d).data = 1 ∧ (l.getS d).data ≠ 1 ∧ (c.getS d).data ≠ 0) ∨
      ((g.getS d).data ≠ 1 ∧ (l.getS d).data = 1 ∧ (c.getS d).data ≠ 0) ∨
      ((g.getS d).data ≠ 1 ∧ (l.getS d).data ≠ 1 ∧ (c.getS d).data = 0))) ∧
  (∀ (v v' : Value) (n : Word), v.hi = v'.hi → v.lo = v'.lo → cmp32 v n = cmp32 v' n)
end

