-- ==== Sys2Proof/Laws/Assembler.lean ====
section
/-! SUPPORT. What each operand shape of the assembler accepts, said once, and the numbers each field takes
(spec/30_encoding.md R72, R73). -/

namespace Sys2Proof.Machine

/-! ### Numbers -/

theorem lenOperand_eq_some {n : Int} {l : Fin 16} : lenOperand n = some l ↔ n = l.val := by
  unfold lenOperand
  split
  · simp only [Option.some.injEq, Fin.ext_iff]; omega
  · have := l.isLt; exact ⟨nofun, fun h => by omega⟩

theorem widthOperand_eq_some {n : Int} {w : Fin 64} : widthOperand n = some w ↔ n = w.val := by
  unfold widthOperand
  split
  · simp only [Option.some.injEq, Fin.ext_iff]; omega
  · have := w.isLt; exact ⟨nofun, fun h => by omega⟩

theorem addrOperand_eq_some {n : Int} {a : BufAddr} : addrOperand n = some a ↔ n = a.toNat := by
  have ha := a.isLt
  unfold addrOperand
  split
  · simp only [Option.some.injEq, ← BitVec.toNat_inj, BitVec.toNat_ofInt]; omega
  · exact ⟨nofun, fun h => by omega⟩

/-! ### Shapes -/

theorem asmR3_eq_some {f : VReg → VReg → VReg → Instr} {ops : List Operand} {i : Instr} :
    asmR3 f ops = some i ↔ ∃ d a b, ops = [.v d, .v a, .v b] ∧ f d a b = i := by
  unfold asmR3; split <;> simp_all

theorem asmRS_eq_some {f : VReg → VReg → SReg → Instr} {ops : List Operand} {i : Instr} :
    asmRS f ops = some i ↔ ∃ d a b, ops = [.v d, .v a, .s b] ∧ f d a b = i := by
  unfold asmRS; split <;> simp_all

theorem asmC_eq_some {f : SReg → VReg → SReg → Instr} {ops : List Operand} {i : Instr} :
    asmC f ops = some i ↔ ∃ d a b, ops = [.s d, .v a, .s b] ∧ f d a b = i := by
  unfold asmC; split <;> simp_all

theorem asmIV_eq_some {f : VReg → SReg → Instr} {ops : List Operand} {i : Instr} :
    asmIV f ops = some i ↔ ∃ d a, ops = [.v d, .s a] ∧ f d a = i := by
  unfold asmIV; split <;> simp_all

theorem asmXS_eq_some {f : SReg → VReg → Instr} {ops : List Operand} {i : Instr} :
    asmXS f ops = some i ↔ ∃ d a, ops = [.s d, .v a] ∧ f d a = i := by
  unfold asmXS; split <;> simp_all

theorem asmP_eq_some {f : VReg → VReg → Instr} {ops : List Operand} {i : Instr} :
    asmP f ops = some i ↔ ∃ d a, ops = [.v d, .v a] ∧ evenReg d = true ∧ f d a = i := by
  unfold asmP; split <;> simp_all

theorem asmI_eq_some {f : VReg → VReg → Int → Instr} {ops : List Operand} {i : Instr} :
    asmI f ops = some i ↔ ∃ d a c, ops = [.v d, .v a, .imm c] ∧ amountInRange c = true ∧ f d a c = i := by
  unfold asmI; split <;> simp_all

theorem asmBS_eq_some {f : VReg → BufAddr → Instr} {ops : List Operand} {i : Instr} :
    asmBS f ops = some i ↔ ∃ (a : VReg) (addr : BufAddr), ops = [.v a, .imm addr.toNat] ∧ f a addr = i := by
  unfold asmBS
  split
  · simp only [Option.map_eq_some_iff, addrOperand_eq_some]; aesop
  · simp_all

theorem asmBL_eq_some {f : VReg → BufAddr → Fin 16 → Instr} {p : VReg → BufAddr → Pseudo} {ops : List Operand} {i : Instr} :
    asmBL f p ops = some i ↔
      (∃ (d : VReg) (addr : BufAddr) (len : Fin 16), ops = [.v d, .imm addr.toNat, .imm len.val] ∧ f d addr len = i) ∨
      ∃ (d : VReg) (addr : BufAddr), ops = [.v d, .imm addr.toNat] ∧ (p d addr).expand = i := by
  unfold asmBL
  split
  · simp only [Option.bind_eq_some_iff, Option.map_eq_some_iff, addrOperand_eq_some, lenOperand_eq_some]; aesop
  · simp only [Option.map_eq_some_iff, addrOperand_eq_some]; aesop
  · simp_all

theorem asmMul_eq_some {ops : List Operand} {i : Instr} :
    asmMul ops = some i ↔
      (∃ (d a b : VReg) (w : Fin 64), ops = [.v d, .v a, .v b, .imm w.val] ∧ .mul d a b w = i) ∨
      ∃ d a b : VReg, ops = [.v d, .v a, .v b] ∧ .mul d a b 0 = i := by
  unfold asmMul
  split
  · simp only [Option.map_eq_some_iff, widthOperand_eq_some]; aesop
  · simp [Pseudo.expand]
  · simp_all

theorem asmMulh_eq_some {ops : List Operand} {i : Instr} :
    asmMulh ops = some i ↔
      (∃ (d a : VReg) (b : SReg) (w : Fin 64), ops = [.v d, .v a, .s b, .imm w.val] ∧ .mulh d a b w = i) ∨
      ∃ (d a : VReg) (b : SReg), ops = [.v d, .v a, .s b] ∧ .mulh d a b 0 = i := by
  unfold asmMulh
  split
  · simp only [Option.map_eq_some_iff, widthOperand_eq_some]; aesop
  · simp [Pseudo.expand]
  · simp_all

theorem asmMv_eq_some {ops : List Operand} {i : Instr} :
    asmMv ops = some i ↔ ∃ d a : VReg, ops = [.v d, .v a] ∧ .rotli d a 0 = i := by
  unfold asmMv; split <;> simp_all [Pseudo.expand]

theorem asmClr_eq_some {ops : List Operand} {i : Instr} :
    asmClr ops = some i ↔ ∃ d : VReg, ops = [.v d] ∧ .shli d d 32 = i := by
  unfold asmClr; split <;> simp_all [Pseudo.expand]

/-! ### The table -/

/-- What is accepted is accepted by the parser of a row with that mnemonic. -/
theorem assembleOps_cases {name : String} {ops : List Operand} {i : Instr} (h : assembleOps name ops = some i) :
    ∃ row ∈ assemblyTable, row.1 = name ∧ row.2 ops = some i := by
  obtain ⟨parse, hl, hp⟩ := Option.bind_eq_some_iff.mp h
  obtain ⟨l₁, l₂, ht, -⟩ := List.lookup_eq_some_iff.mp hl
  exact ⟨(name, parse), by rw [ht]; simp, rfl, hp⟩

end Sys2Proof.Machine
end

