-- ==== Sys2Proof/Laws/Encoding.lean ====
section
/-! SUPPORT. The fields of a packed word, and what masking one gives. -/

namespace Sys2Proof

@[simp] theorem opcField_pack (o : BitVec 8) (d a b : BitVec 4) (m : BitVec 12) : opcField (pack o d a b m) = o := by
  apply BitVec.eq_of_getLsbD_eq
  intro i hi
  simp only [opcField, pack, BitVec.getLsbD_extractLsb', BitVec.getLsbD_append]
  grind

@[simp] theorem rdBits_pack (o : BitVec 8) (d a b : BitVec 4) (m : BitVec 12) : (pack o d a b m).extractLsb' 20 4 = d := by
  apply BitVec.eq_of_getLsbD_eq
  intro i hi
  simp only [pack, BitVec.getLsbD_extractLsb', BitVec.getLsbD_append]
  grind

@[simp] theorem raBits_pack (o : BitVec 8) (d a b : BitVec 4) (m : BitVec 12) : (pack o d a b m).extractLsb' 16 4 = a := by
  apply BitVec.eq_of_getLsbD_eq
  intro i hi
  simp only [pack, BitVec.getLsbD_extractLsb', BitVec.getLsbD_append]
  grind

@[simp] theorem rbBits_pack (o : BitVec 8) (d a b : BitVec 4) (m : BitVec 12) : (pack o d a b m).extractLsb' 12 4 = b := by
  apply BitVec.eq_of_getLsbD_eq
  intro i hi
  simp only [pack, BitVec.getLsbD_extractLsb', BitVec.getLsbD_append]
  grind

/-- A field inside IMM12 reads the immediate's own bits (R61). -/
theorem immBits_pack (o : BitVec 8) (d a b : BitVec 4) (m : BitVec 12) {st ln : Nat} (h : st + ln ≤ 12) :
    (pack o d a b m).extractLsb' st ln = m.extractLsb' st ln := by
  apply BitVec.eq_of_getLsbD_eq
  intro i hi
  simp only [pack, BitVec.getLsbD_extractLsb', BitVec.getLsbD_append]
  grind

@[simp] theorem regNum_regBits (r : Fin 16) : regNum (regBits r) = r := by
  revert r
  decide

@[simp] theorem regBits_regNum (x : BitVec 4) : regBits (regNum x) = x := by
  revert x
  decide

@[simp] theorem rd_pack (o : BitVec 8) (d a b : BitVec 4) (m : BitVec 12) : rd (pack o d a b m) = regNum d := by
  simp [rd]

@[simp] theorem ra_pack (o : BitVec 8) (d a b : BitVec 4) (m : BitVec 12) : ra (pack o d a b m) = regNum a := by
  simp [ra]

@[simp] theorem rb_pack (o : BitVec 8) (d a b : BitVec 4) (m : BitVec 12) : rb (pack o d a b m) = regNum b := by
  simp [rb]

/-- The immediate of format BL gives back its length (R64). -/
@[simp] theorem lenField_pack (o : BitVec 8) (d a b : BitVec 4) (len : Fin 16) (addr : BufAddr) :
    lenField (pack o d a b (lenBits len ++ addr)) = len := by
  have h : (lenBits len ++ addr : BitVec 12).extractLsb' 8 4 = regBits len := by
    apply BitVec.eq_of_getLsbD_eq
    intro i hi
    simp only [lenBits, regBits, BitVec.getLsbD_extractLsb', BitVec.getLsbD_append]
    grind
  rw [lenField, immBits_pack _ _ _ _ _ (by decide), h, regNum_regBits]

/-- The immediate of formats BL and BS gives back its address (R64). -/
@[simp] theorem addrField_pack (o : BitVec 8) (d a b x : BitVec 4) (addr : BufAddr) :
    addrField (pack o d a b (x ++ addr)) = addr := by
  rw [addrField, immBits_pack _ _ _ _ _ (by decide)]
  apply BitVec.eq_of_getLsbD_eq
  intro i hi
  simp only [BitVec.getLsbD_extractLsb', BitVec.getLsbD_append]
  grind

/-- The immediate of format W gives back its W (R64). -/
@[simp] theorem widthField_pack (o : BitVec 8) (d a b : BitVec 4) (w : Fin 64) :
    widthField (pack o d a b (widthBits w)) = w := by
  have h : ∀ w : Fin 64, ((widthBits w).extractLsb' 0 6).toNat = w.val := by decide
  apply Fin.ext
  simp only [widthField, immBits_pack _ _ _ _ _ (show 0 + 6 ≤ 12 by decide), h]

/-- The immediate of format I gives back an amount in its range (R64, R75). -/
theorem amountField_pack (o : BitVec 8) (d a b : BitVec 4) {c : Int} (h : amountInRange c = true) :
    amountField (pack o d a b (amountBits c)) = c := by
  simp only [amountInRange, decide_eq_true_eq] at h
  have hid : (amountBits c).extractLsb' 0 12 = amountBits c := by simp
  rw [amountField, immBits_pack _ _ _ _ _ (by decide), hid, amountBits, BitVec.toInt_ofInt]
  simp only [Int.bmod]
  omega

/-- Packed words are combined field by field. -/
theorem pack_and (o o' : BitVec 8) (d a b d' a' b' : BitVec 4) (m m' : BitVec 12) :
    pack o d a b m &&& pack o' d' a' b' m' = pack (o &&& o') (d &&& d') (a &&& a') (b &&& b') (m &&& m') := by
  apply BitVec.eq_of_getLsbD_eq
  intro i hi
  simp only [pack, BitVec.getLsbD_and, BitVec.getLsbD_append]
  grind

/-- Every word is the packing of its five fields (R61). -/
theorem pack_fields (w : Word) :
    pack (opcField w) (w.extractLsb' 20 4) (w.extractLsb' 16 4) (w.extractLsb' 12 4) (w.extractLsb' 0 12) = w := by
  apply BitVec.eq_of_getLsbD_eq
  intro i hi
  simp only [pack, opcField, BitVec.getLsbD_extractLsb', BitVec.getLsbD_append]
  grind

/-- A packed word is zero exactly when its fields are. -/
theorem pack_eq_iff (o o' : BitVec 8) (d a b d' a' b' : BitVec 4) (m m' : BitVec 12) :
    pack o d a b m = pack o' d' a' b' m' ↔ o = o' ∧ d = d' ∧ a = a' ∧ b = b' ∧ m = m' := by
  constructor
  · intro h
    refine ⟨?_, ?_, ?_, ?_, ?_⟩
    · simpa using congrArg opcField h
    · simpa using congrArg (·.extractLsb' 20 4) h
    · simpa using congrArg (·.extractLsb' 16 4) h
    · simpa using congrArg (·.extractLsb' 12 4) h
    · simpa [immBits_pack] using congrArg (·.extractLsb' 0 12) h
  · rintro ⟨rfl, rfl, rfl, rfl, rfl⟩
    rfl

/-- A format's mask as fields (R62). -/
theorem Fmt.mask_eq_pack (f : Fmt) : f.mask = pack 0xFF#8
    (f.mask.extractLsb' 20 4) (f.mask.extractLsb' 16 4) (f.mask.extractLsb' 12 4) (f.mask.extractLsb' 0 12) := by
  cases f <;> decide

/-- A format's must-be-zero bits as fields (R62, R66). -/
theorem Fmt.mustBeZero_eq_pack (f : Fmt) : f.mustBeZero = pack 0#8
    (f.mask.extractLsb' 20 4) (f.mask.extractLsb' 16 4) (f.mask.extractLsb' 12 4) (f.mask.extractLsb' 0 12) := by
  cases f <;> decide

/-- A word passes its format's check exactly when masking it leaves the opcode alone (R66, R71). -/
theorem mustBeZero_clear_iff (f : Fmt) (w : Word) : w &&& f.mustBeZero = 0 ↔ w &&& f.mask = opcField w ++ 0#24 := by
  have hz : (0 : Word) = pack 0 0 0 0 0 := by decide
  have ho : ∀ o : BitVec 8, (o ++ 0#24 : Word) = pack o 0 0 0 0 := by decide
  rw [hz, ho]
  conv => lhs; lhs; rw [← pack_fields w]
  conv => rhs; lhs; rw [← pack_fields w]
  rw [f.mustBeZero_eq_pack, f.mask_eq_pack, pack_and, pack_and, pack_eq_iff, pack_eq_iff]
  simp only [rdBits_pack, raBits_pack, rbBits_pack]
  have h1 : opcField w &&& 0#8 = 0 := by simp
  have h2 : opcField w &&& 0xFF#8 = opcField w := by
    have h : (0xFF#8) = BitVec.allOnes 8 := by decide
    rw [h, BitVec.and_allOnes]
  rw [h1, h2]
  simp [immBits_pack]

/-- A word that matches a row of the map has the row's opcode and no must-be-zero bit set (R65, R66, R71). -/
theorem row_match {f : Fmt} {o : BitVec 8} {w : Word} (h : w &&& f.mask = o ++ 0#24) :
    opcField w = o ∧ w &&& f.mustBeZero = 0 := by
  have ho : ∀ o : BitVec 8, (o ++ 0#24 : Word) = pack o 0 0 0 0 := by decide
  have hw : opcField (w &&& f.mask) = opcField w := by
    conv => lhs; rw [← pack_fields w, f.mask_eq_pack, pack_and]
    have hm : (0xFF#8) = BitVec.allOnes 8 := by decide
    rw [opcField_pack, hm, BitVec.and_allOnes]
  have hopc : opcField w = o := by rw [← hw, h, ho, opcField_pack]
  exact ⟨hopc, (mustBeZero_clear_iff f w).mpr (by rw [hopc, h])⟩

/-- The check of a word that matches its row. -/
theorem checked_of_clear {f : Fmt} {w : Word} (h : w &&& f.mustBeZero = 0) (i : Instr) : checked f w i = .ok i :=
  if_pos h

/-- The check of a word with a must-be-zero bit set (R66). -/
theorem checked_of_set {f : Fmt} {w : Word} (h : w &&& f.mustBeZero ≠ 0) (i : Instr) :
    checked f w i = .error .mustBeZeroBitSet :=
  if_neg h

/-- The only instruction a check can answer, and when. -/
theorem checked_eq_ok {f : Fmt} {w : Word} {i j : Instr} (h : checked f w i = .ok j) : w &&& f.mustBeZero = 0 ∧ j = i := by
  unfold checked at h
  split at h
  · exact ⟨‹_›, by cases h; rfl⟩
  · cases h

end Sys2Proof
end

