-- ==== Sys2Proof/Laws/State.lean ====
section
/-! SUPPORT. One lemma per field of State per update, true by rfl, and the reads of the register files after an update, so
that no later proof unfolds a record update. -/

namespace Sys2Proof.Machine

/-! ### `setV` -/

@[simp] theorem State.setV_vreg (s : State) (r : VReg) (v : Value) : (s.setV r v).vreg = s.vreg.set r v := rfl
@[simp] theorem State.setV_sreg (s : State) (r : VReg) (v : Value) : (s.setV r v).sreg = s.sreg := rfl
@[simp] theorem State.setV_buf (s : State) (r : VReg) (v : Value) : (s.setV r v).buf = s.buf := rfl
@[simp] theorem State.setV_status (s : State) (r : VReg) (v : Value) : (s.setV r v).status = s.status := rfl
@[simp] theorem State.setV_cfg (s : State) (r : VReg) (v : Value) : (s.setV r v).cfg = s.cfg := rfl
@[simp] theorem State.setV_pending (s : State) (r : VReg) (v : Value) : (s.setV r v).pending = s.pending := rfl
@[simp] theorem State.setV_reads (s : State) (r : VReg) (v : Value) : (s.setV r v).reads = s.reads := rfl
@[simp] theorem State.getS_setV (s : State) (r : VReg) (v : Value) (q : SReg) : (s.setV r v).getS q = s.getS q := rfl
@[simp] theorem State.byte_setV (s : State) (r : VReg) (v : Value) (p : BufAddr) : (s.setV r v).byte p = s.byte p := rfl

/-! ### `setInt` -/

@[simp] theorem State.setInt_vreg (s : State) (r : SReg) (x : Word) : (s.setInt r x).vreg = s.vreg := rfl
@[simp] theorem State.setInt_sreg (s : State) (r : SReg) (x : Word) : (s.setInt r x).sreg = s.sreg.set r ⟨x, true⟩ := rfl
@[simp] theorem State.setInt_buf (s : State) (r : SReg) (x : Word) : (s.setInt r x).buf = s.buf := rfl
@[simp] theorem State.setInt_status (s : State) (r : SReg) (x : Word) : (s.setInt r x).status = s.status := rfl
@[simp] theorem State.setInt_cfg (s : State) (r : SReg) (x : Word) : (s.setInt r x).cfg = s.cfg := rfl
@[simp] theorem State.setInt_pending (s : State) (r : SReg) (x : Word) : (s.setInt r x).pending = s.pending := rfl
@[simp] theorem State.setInt_reads (s : State) (r : SReg) (x : Word) : (s.setInt r x).reads = s.reads := rfl
@[simp] theorem State.getV_setInt (s : State) (r : SReg) (x : Word) (q : VReg) : (s.setInt r x).getV q = s.getV q := rfl
@[simp] theorem State.byte_setInt (s : State) (r : SReg) (x : Word) (p : BufAddr) : (s.setInt r x).byte p = s.byte p := rfl

/-! ### `setKinds` -/

@[simp] theorem State.setKinds_vreg (s : State) (w : Word) : (s.setKinds w).vreg = s.vreg := rfl
@[simp] theorem State.setKinds_sreg (s : State) (w : Word) : (s.setKinds w).sreg = Vector.ofFn fun i : Fin 16 => ⟨(s.getS i).data, w.getLsbD i⟩ := rfl
@[simp] theorem State.setKinds_buf (s : State) (w : Word) : (s.setKinds w).buf = s.buf := rfl
@[simp] theorem State.setKinds_status (s : State) (w : Word) : (s.setKinds w).status = s.status := rfl
@[simp] theorem State.setKinds_cfg (s : State) (w : Word) : (s.setKinds w).cfg = s.cfg := rfl
@[simp] theorem State.setKinds_pending (s : State) (w : Word) : (s.setKinds w).pending = s.pending := rfl
@[simp] theorem State.setKinds_reads (s : State) (w : Word) : (s.setKinds w).reads = s.reads := rfl
@[simp] theorem State.getV_setKinds (s : State) (w : Word) (q : VReg) : (s.setKinds w).getV q = s.getV q := rfl
@[simp] theorem State.byte_setKinds (s : State) (w : Word) (p : BufAddr) : (s.setKinds w).byte p = s.byte p := rfl

/-! ### `setByte` -/

@[simp] theorem State.setByte_vreg (s : State) (a : BufAddr) (b : Byte) : (s.setByte a b).vreg = s.vreg := rfl
@[simp] theorem State.setByte_sreg (s : State) (a : BufAddr) (b : Byte) : (s.setByte a b).sreg = s.sreg := rfl
@[simp] theorem State.setByte_buf (s : State) (a : BufAddr) (b : Byte) : (s.setByte a b).buf = Memory.write s.buf a.toNat b := rfl
@[simp] theorem State.setByte_status (s : State) (a : BufAddr) (b : Byte) : (s.setByte a b).status = s.status := rfl
@[simp] theorem State.setByte_cfg (s : State) (a : BufAddr) (b : Byte) : (s.setByte a b).cfg = s.cfg := rfl
@[simp] theorem State.setByte_pending (s : State) (a : BufAddr) (b : Byte) : (s.setByte a b).pending = s.pending := rfl
@[simp] theorem State.setByte_reads (s : State) (a : BufAddr) (b : Byte) : (s.setByte a b).reads = s.reads := rfl
@[simp] theorem State.getV_setByte (s : State) (a : BufAddr) (b : Byte) (q : VReg) : (s.setByte a b).getV q = s.getV q := rfl
@[simp] theorem State.getS_setByte (s : State) (a : BufAddr) (b : Byte) (q : SReg) : (s.setByte a b).getS q = s.getS q := rfl

/-! ### `writeQuad` -/

@[simp] theorem State.writeQuad_vreg (s : State) (a : BufAddr) (q : Quad) : (s.writeQuad a q).vreg = s.vreg := rfl
@[simp] theorem State.writeQuad_sreg (s : State) (a : BufAddr) (q : Quad) : (s.writeQuad a q).sreg = s.sreg := rfl
@[simp] theorem State.writeQuad_status (s : State) (a : BufAddr) (q : Quad) : (s.writeQuad a q).status = s.status := rfl
@[simp] theorem State.writeQuad_cfg (s : State) (a : BufAddr) (q : Quad) : (s.writeQuad a q).cfg = s.cfg := rfl
@[simp] theorem State.writeQuad_pending (s : State) (a : BufAddr) (q : Quad) : (s.writeQuad a q).pending = s.pending := rfl
@[simp] theorem State.writeQuad_reads (s : State) (a : BufAddr) (q : Quad) : (s.writeQuad a q).reads = s.reads := rfl
@[simp] theorem State.getV_writeQuad (s : State) (a : BufAddr) (q : Quad) (r : VReg) : (s.writeQuad a q).getV r = s.getV r := rfl
@[simp] theorem State.getS_writeQuad (s : State) (a : BufAddr) (q : Quad) (r : SReg) : (s.writeQuad a q).getS r = s.getS r := rfl

/-! ### `complete` -/

@[simp] theorem State.complete_vreg (s : State) : s.complete.vreg = s.vreg := rfl
@[simp] theorem State.complete_sreg (s : State) : s.complete.sreg = s.sreg := rfl
@[simp] theorem State.complete_buf (s : State) : s.complete.buf = s.buf := rfl
@[simp] theorem State.complete_status (s : State) : s.complete.status = s.status.onSuccess := rfl
@[simp] theorem State.complete_cfg (s : State) : s.complete.cfg = s.cfg := rfl
@[simp] theorem State.complete_pending (s : State) : s.complete.pending = s.pending := rfl
@[simp] theorem State.complete_reads (s : State) : s.complete.reads = s.reads := rfl
@[simp] theorem State.getV_complete (s : State) (q : VReg) : s.complete.getV q = s.getV q := rfl
@[simp] theorem State.getS_complete (s : State) (q : SReg) : s.complete.getS q = s.getS q := rfl
@[simp] theorem State.byte_complete (s : State) (p : BufAddr) : s.complete.byte p = s.byte p := rfl

/-! ### `raise` -/

@[simp] theorem State.raise_vreg (s : State) (e : ErrorKind) : (s.raise e).vreg = s.vreg := rfl
@[simp] theorem State.raise_sreg (s : State) (e : ErrorKind) : (s.raise e).sreg = s.sreg := rfl
@[simp] theorem State.raise_buf (s : State) (e : ErrorKind) : (s.raise e).buf = s.buf := rfl
@[simp] theorem State.raise_status (s : State) (e : ErrorKind) : (s.raise e).status = s.status.onError e := rfl
@[simp] theorem State.raise_cfg (s : State) (e : ErrorKind) : (s.raise e).cfg = s.cfg := rfl
@[simp] theorem State.raise_pending (s : State) (e : ErrorKind) : (s.raise e).pending = s.pending := rfl
@[simp] theorem State.raise_reads (s : State) (e : ErrorKind) : (s.raise e).reads = s.reads := rfl
@[simp] theorem State.getV_raise (s : State) (e : ErrorKind) (q : VReg) : (s.raise e).getV q = s.getV q := rfl
@[simp] theorem State.getS_raise (s : State) (e : ErrorKind) (q : SReg) : (s.raise e).getS q = s.getS q := rfl
@[simp] theorem State.byte_raise (s : State) (e : ErrorKind) (p : BufAddr) : (s.raise e).byte p = s.byte p := rfl

/-! ### `resetUnit` -/

@[simp] theorem State.resetUnit_vreg (s : State) : s.resetUnit.vreg = State.reset.vreg := rfl
@[simp] theorem State.resetUnit_sreg (s : State) : s.resetUnit.sreg = State.reset.sreg := rfl
@[simp] theorem State.resetUnit_buf (s : State) : s.resetUnit.buf = State.reset.buf := rfl
@[simp] theorem State.resetUnit_status (s : State) : s.resetUnit.status = State.reset.status := rfl
@[simp] theorem State.resetUnit_cfg (s : State) : s.resetUnit.cfg = s.cfg := rfl
@[simp] theorem State.resetUnit_pending (s : State) : s.resetUnit.pending = s.pending := rfl
@[simp] theorem State.resetUnit_reads (s : State) : s.resetUnit.reads = s.reads := rfl

/-! ### `returnRead` -/

@[simp] theorem State.returnRead_vreg (s : State) (x : Word) : (s.returnRead x).vreg = s.vreg := rfl
@[simp] theorem State.returnRead_sreg (s : State) (x : Word) : (s.returnRead x).sreg = s.sreg := rfl
@[simp] theorem State.returnRead_buf (s : State) (x : Word) : (s.returnRead x).buf = s.buf := rfl
@[simp] theorem State.returnRead_status (s : State) (x : Word) : (s.returnRead x).status = s.status := rfl
@[simp] theorem State.returnRead_cfg (s : State) (x : Word) : (s.returnRead x).cfg = s.cfg := rfl
@[simp] theorem State.returnRead_pending (s : State) (x : Word) : (s.returnRead x).pending = s.pending := rfl
@[simp] theorem State.returnRead_reads (s : State) (x : Word) : (s.returnRead x).reads = s.reads ++ [x] := rfl
@[simp] theorem State.getV_returnRead (s : State) (x : Word) (q : VReg) : (s.returnRead x).getV q = s.getV q := rfl
@[simp] theorem State.getS_returnRead (s : State) (x : Word) (q : SReg) : (s.returnRead x).getS q = s.getS q := rfl
@[simp] theorem State.byte_returnRead (s : State) (x : Word) (p : BufAddr) : (s.returnRead x).byte p = s.byte p := rfl

/-! ### Reads of the register files -/

/-- Reading V after writing V: the written register holds the new value, every other its old one (R11). -/
theorem State.getV_setV (s : State) (r q : VReg) (v : Value) : (s.setV r v).getV q = if q = r then v else s.getV q := by
  simp only [State.getV, State.setV, Fin.getElem_fin, Vector.getElem_set, Fin.ext_iff, eq_comm]

@[simp] theorem State.getV_setV_same (s : State) (r : VReg) (v : Value) : (s.setV r v).getV r = v := by
  simp [State.getV_setV]

@[simp] theorem State.getV_setV_of_ne (s : State) {r q : VReg} (v : Value) (h : q ≠ r) : (s.setV r v).getV q = s.getV q := by
  simp [State.getV_setV, h]

/-- Reading S after `S[r] <- int(x)` (R11, R27). -/
theorem State.getS_setInt (s : State) (r q : SReg) (x : Word) :
    (s.setInt r x).getS q = if q = r then ⟨x, true⟩ else s.getS q := by
  simp only [State.getS, State.setInt, Fin.getElem_fin, Vector.getElem_set, Fin.ext_iff, eq_comm]

@[simp] theorem State.getS_setInt_same (s : State) (r : SReg) (x : Word) : (s.setInt r x).getS r = ⟨x, true⟩ := by
  simp [State.getS_setInt]

@[simp] theorem State.getS_setInt_of_ne (s : State) {r q : SReg} (x : Word) (h : q ≠ r) :
    (s.setInt r x).getS q = s.getS q := by
  simp [State.getS_setInt, h]

/-- Reading S after a write of the kind bits: the data stays and the kind is the word's bit (R27, R32). -/
@[simp] theorem State.getS_setKinds (s : State) (w : Word) (q : SReg) :
    (s.setKinds w).getS q = ⟨(s.getS q).data, w.getLsbD q⟩ := by
  simp [State.getS, State.setKinds]

/-! ### The reset state -/

@[simp] theorem State.reset_getV (r : VReg) : State.reset.getV r = ⟨0, 0, 0⟩ := by
  simp [State.getV, State.reset]

@[simp] theorem State.reset_getS (r : SReg) : State.reset.getS r = ⟨0, false⟩ := by
  simp [State.getS, State.reset]

@[simp] theorem State.reset_byte (a : BufAddr) : State.reset.byte a = 0 := rfl

@[simp] theorem State.getV_resetUnit (s : State) (r : VReg) : s.resetUnit.getV r = ⟨0, 0, 0⟩ := State.reset_getV r

@[simp] theorem State.getS_resetUnit (s : State) (r : SReg) : s.resetUnit.getS r = ⟨0, false⟩ := State.reset_getS r

@[simp] theorem State.byte_resetUnit (s : State) (a : BufAddr) : s.resetUnit.byte a = 0 := rfl

/-- Two states are equal when they agree on every field. -/
theorem State.ext_fields {s t : State} (hv : s.vreg = t.vreg) (hs : s.sreg = t.sreg) (hb : s.buf = t.buf)
    (hst : s.status = t.status) (hc : s.cfg = t.cfg) (hp : s.pending = t.pending) (hr : s.reads = t.reads) : s = t := by
  cases s; cases t; simp_all

/-- The value registers are equal when each is: what an extensionality proof over V uses. -/
theorem State.vreg_ext {s t : State} (h : ∀ r, s.getV r = t.getV r) : s.vreg = t.vreg := by
  apply Vector.ext
  intro i hi
  exact h ⟨i, hi⟩

/-- The host-scalar registers are equal when each is. -/
theorem State.sreg_ext {s t : State} (h : ∀ r, s.getS r = t.getS r) : s.sreg = t.sreg := by
  apply Vector.ext
  intro i hi
  exact h ⟨i, hi⟩

end Sys2Proof.Machine
end

