-- ==== Sys2Proof/Laws/Memory.lean ====
section
/-! SUPPORT. BUF: reads after writes, and the canonical form that every write keeps. -/

namespace Sys2Proof.Machine

/-! ### One cell -/

theorem Memory.read_consCell_same (a : Nat) (b : Byte) (m : Memory) (h : b = Memory.unlisted → Memory.read m a = b) :
    Memory.read (Memory.consCell a b m) a = b := by
  unfold Memory.consCell
  split
  · exact h ‹_›
  · simp [Memory.read]

theorem Memory.read_consCell_of_ne {a a' : Nat} (h : a' ≠ a) (b : Byte) (m : Memory) :
    Memory.read (Memory.consCell a b m) a' = Memory.read m a' := by
  unfold Memory.consCell
  split
  · rfl
  · simp [Memory.read, h.symm]

theorem Memory.wfFrom_consCell {lo a : Nat} {b : Byte} {m : Memory} (hlo : lo ≤ a) (ha : a < 256)
    (hm : Memory.wfFrom (a + 1) m = true) (hm' : Memory.wfFrom lo m = true) :
    Memory.wfFrom lo (Memory.consCell a b m) = true := by
  unfold Memory.consCell
  split
  · exact hm'
  · simp_all [Memory.wfFrom]

/-! ### The canonical form -/

/-- The canonical form above a bound is one above any smaller bound. -/
theorem Memory.wfFrom_mono {lo lo' : Nat} (h : lo' ≤ lo) : ∀ {m : Memory}, Memory.wfFrom lo m = true → Memory.wfFrom lo' m = true
  | [], _ => rfl
  | (k, b) :: m, hm => by
    simp only [Memory.wfFrom, Bool.and_eq_true, decide_eq_true_eq] at hm ⊢
    exact ⟨⟨⟨by omega, hm.1.1.2⟩, hm.1.2⟩, hm.2⟩

/-- An address below a canonical memory's bound is unlisted. -/
theorem Memory.read_of_lt : ∀ {lo a : Nat} {m : Memory}, Memory.wfFrom lo m = true → a < lo → Memory.read m a = Memory.unlisted
  | _, _, [], _, _ => rfl
  | lo, a, (k, b) :: m, hm, h => by
    simp only [Memory.wfFrom, Bool.and_eq_true, decide_eq_true_eq] at hm
    have hk : k ≠ a := by omega
    simp only [Memory.read, if_neg hk]
    exact Memory.read_of_lt hm.2 (by omega)

/-- A write keeps the canonical form above a bound it does not go below. -/
theorem Memory.wfFrom_write : ∀ {lo a : Nat} {b : Byte} {m : Memory}, Memory.wfFrom lo m = true → lo ≤ a → a < 256 →
    Memory.wfFrom lo (Memory.write m a b) = true
  | lo, a, b, [], _, hlo, ha => Memory.wfFrom_consCell hlo ha rfl rfl
  | lo, a, b, (k, c) :: m, hm, hlo, ha => by
    have hm0 := hm
    simp only [Memory.wfFrom, Bool.and_eq_true, decide_eq_true_eq] at hm
    unfold Memory.write
    split
    · refine Memory.wfFrom_consCell hlo ha ?_ hm0
      simp only [Memory.wfFrom, Bool.and_eq_true, decide_eq_true_eq]
      exact ⟨⟨⟨by omega, hm.1.1.2⟩, hm.1.2⟩, hm.2⟩
    · split
      · subst a
        exact Memory.wfFrom_consCell hlo ha hm.2 (Memory.wfFrom_mono (by omega) hm.2)
      · simp only [Memory.wfFrom, Bool.and_eq_true, decide_eq_true_eq]
        exact ⟨hm.1, Memory.wfFrom_write hm.2 (by omega) ha⟩

/-- A write keeps the canonical form. -/
theorem Memory.wf_write {m : Memory} (hm : Memory.wf m = true) {a : Nat} (ha : a < 256) (b : Byte) :
    Memory.wf (Memory.write m a b) = true :=
  Memory.wfFrom_write hm (Nat.zero_le a) ha

@[simp] theorem Memory.wf_reset : Memory.wf State.reset.buf = true := rfl

/-! ### Reads after writes -/

/-- A write leaves every other address as it was, whatever the memory. -/
theorem Memory.read_write_of_ne {a a' : Nat} (h : a' ≠ a) (b : Byte) : ∀ m : Memory, Memory.read (Memory.write m a b) a' = Memory.read m a'
  | [] => Memory.read_consCell_of_ne h b []
  | (k, c) :: m => by
    unfold Memory.write
    split
    · exact Memory.read_consCell_of_ne h b _
    · split
      · subst a
        rw [Memory.read_consCell_of_ne h]
        simp [Memory.read, h.symm]
      · simp only [Memory.read, Memory.read_write_of_ne h b m]

/-- In a canonical memory the written address reads as what was written. -/
theorem Memory.read_write_same (b : Byte) : ∀ {lo a : Nat} {m : Memory}, Memory.wfFrom lo m = true →
    Memory.read (Memory.write m a b) a = b
  | _, a, [], _ => Memory.read_consCell_same a b [] fun h => h.symm ▸ rfl
  | lo, a, (k, c) :: m, hm => by
    simp only [Memory.wfFrom, Bool.and_eq_true, decide_eq_true_eq] at hm
    unfold Memory.write
    split
    · refine Memory.read_consCell_same a b _ fun h => ?_
      have hk : k ≠ a := by omega
      simp only [Memory.read, if_neg hk, h]
      exact Memory.read_of_lt hm.2 (by omega)
    · split
      · subst a
        refine Memory.read_consCell_same k b m fun h => ?_
        rw [h]
        exact Memory.read_of_lt hm.2 (by omega)
      · have hk : k ≠ a := by omega
        simp only [Memory.read, if_neg hk]
        exact Memory.read_write_same b hm.2

/-- Two canonical memories that read alike are the same list. -/
theorem Memory.ext_of_read : ∀ {lo : Nat} {m m' : Memory}, Memory.wfFrom lo m = true → Memory.wfFrom lo m' = true →
    (∀ a, a < 256 → Memory.read m a = Memory.read m' a) → m = m'
  | _, [], [], _, _, _ => rfl
  | lo, [], (k, b) :: m', _, h', hr => by
    simp only [Memory.wfFrom, Bool.and_eq_true, decide_eq_true_eq] at h'
    have := hr k h'.1.1.2
    simp only [Memory.read, if_true] at this
    exact absurd this.symm h'.1.2
  | lo, (k, b) :: m, [], h, _, hr => by
    simp only [Memory.wfFrom, Bool.and_eq_true, decide_eq_true_eq] at h
    have := hr k h.1.1.2
    simp only [Memory.read, if_true] at this
    exact absurd this h.1.2
  | lo, (k, b) :: m, (k', b') :: m', h, h', hr => by
    simp only [Memory.wfFrom, Bool.and_eq_true, decide_eq_true_eq] at h h'
    have hk : k = k' := by
      rcases Nat.lt_trichotomy k k' with hlt | heq | hgt
      · have := hr k h.1.1.2
        simp only [Memory.read, if_true, if_neg (Nat.ne_of_gt hlt)] at this
        exact absurd (this.trans (Memory.read_of_lt h'.2 (by omega))) h.1.2
      · exact heq
      · have := hr k' h'.1.1.2
        simp only [Memory.read, if_true, if_neg (Nat.ne_of_gt hgt)] at this
        exact absurd (this.symm.trans (Memory.read_of_lt h.2 (by omega))) h'.1.2
    subst hk
    have hb : b = b' := by simpa [Memory.read] using hr k h.1.1.2
    subst hb
    congr 1
    refine Memory.ext_of_read h.2 h'.2 fun a ha => ?_
    by_cases hka : k = a
    · subst hka
      rw [Memory.read_of_lt h.2 (by omega), Memory.read_of_lt h'.2 (by omega)]
    · simpa [Memory.read, hka] using hr a ha

/-! ### The byte accessors -/

@[simp] theorem State.byte_setByte_of_ne (s : State) {a p : BufAddr} (b : Byte) (h : p ≠ a) : (s.setByte a b).byte p = s.byte p :=
  Memory.read_write_of_ne (fun e => h (BitVec.eq_of_toNat_eq e)) b s.buf

@[simp] theorem State.byte_setByte_same {s : State} (h : Memory.wf s.buf = true) (a : BufAddr) (b : Byte) :
    (s.setByte a b).byte a = b :=
  Memory.read_write_same b h

@[simp] theorem State.wf_setByte {s : State} (h : Memory.wf s.buf = true) (a : BufAddr) (b : Byte) :
    Memory.wf (s.setByte a b).buf = true :=
  Memory.wf_write h a.isLt b

@[simp] theorem State.wf_writeQuad {s : State} (h : Memory.wf s.buf = true) (a : BufAddr) (q : Quad) :
    Memory.wf (s.writeQuad a q).buf = true := by
  unfold State.writeQuad
  exact State.wf_setByte (State.wf_setByte (State.wf_setByte (State.wf_setByte h _ _) _ _) _ _) _ _

/-- The four addresses of a 4-byte access are distinct: the wrap modulo 256 never meets itself (R41). -/
theorem byteAddr_inj {addr : BufAddr} {j k : Nat} (hj : j < 256) (hk : k < 256) (h : byteAddr addr j = byteAddr addr k) : j = k := by
  unfold byteAddr at h
  have h' : BitVec.ofNat 8 j = BitVec.ofNat 8 k := BitVec.add_right_inj addr |>.mp h
  have := congrArg BitVec.toNat h'
  simp only [BitVec.toNat_ofNat] at this
  omega

theorem byteAddr_ne {addr : BufAddr} {j k : Nat} (hj : j < 256) (hk : k < 256) (h : j ≠ k) : byteAddr addr j ≠ byteAddr addr k :=
  fun e => h (byteAddr_inj hj hk e)

/-- A 4-byte write changes no other byte (R41, R104). -/
theorem State.byte_writeQuad_of_not_mem (s : State) {addr p : BufAddr} (q : Quad) (h : p ∉ quadAddrs addr) :
    (s.writeQuad addr q).byte p = s.byte p := by
  simp only [quadAddrs, List.mem_cons, List.not_mem_nil, or_false, not_or] at h
  obtain ⟨h0, h1, h2, h3⟩ := h
  simp [State.writeQuad, h0, h1, h2, h3]

/-- What a 4-byte write leaves at its four addresses, on a canonical BUF (R41). -/
theorem State.readQuad_writeQuad {s : State} (h : Memory.wf s.buf = true) (addr : BufAddr) (q : Quad) :
    (s.writeQuad addr q).readQuad addr = q := by
  have ne : ∀ {j k : Nat}, j < 4 → k < 4 → j ≠ k → byteAddr addr j ≠ byteAddr addr k :=
    fun hj hk hne => byteAddr_ne (by omega) (by omega) hne
  have w0 := State.wf_setByte h (byteAddr addr 0) q.b0
  have w1 := State.wf_setByte w0 (byteAddr addr 1) q.b1
  have w2 := State.wf_setByte w1 (byteAddr addr 2) q.b2
  simp only [State.readQuad, State.writeQuad]
  rw [State.byte_setByte_same w2,
    State.byte_setByte_of_ne _ _ (ne (j := 2) (k := 3) (by omega) (by omega) (by omega)), State.byte_setByte_same w1,
    State.byte_setByte_of_ne _ _ (ne (j := 1) (k := 3) (by omega) (by omega) (by omega)),
    State.byte_setByte_of_ne _ _ (ne (j := 1) (k := 2) (by omega) (by omega) (by omega)), State.byte_setByte_same w0,
    State.byte_setByte_of_ne _ _ (ne (j := 0) (k := 3) (by omega) (by omega) (by omega)),
    State.byte_setByte_of_ne _ _ (ne (j := 0) (k := 2) (by omega) (by omega) (by omega)),
    State.byte_setByte_of_ne _ _ (ne (j := 0) (k := 1) (by omega) (by omega) (by omega)), State.byte_setByte_same h]

end Sys2Proof.Machine
end

