-- ==== Sys2Proof/Laws/Ops.lean ====
section
/-! SUPPORT. What each shared operation can do, said once: the two ends of a command, the guarded read, construction from
bytes, the two barrel forms, the serving of an input, and the step. -/

namespace Sys2Proof.Machine

/-! ### STATUS -/

@[simp] theorem Status.onSuccess_last (st : Status) : st.onSuccess.last = .ok := rfl
@[simp] theorem Status.onSuccess_rangeSeen (st : Status) : st.onSuccess.rangeSeen = st.rangeSeen := rfl
@[simp] theorem Status.onSuccess_typeSeen (st : Status) : st.onSuccess.typeSeen = st.typeSeen := rfl
@[simp] theorem Status.onSuccess_illegalSeen (st : Status) : st.onSuccess.illegalSeen = st.illegalSeen := rfl
@[simp] theorem Status.onError_last (st : Status) (e : ErrorKind) : (st.onError e).last = e.toLast := rfl
@[simp] theorem Status.clearSeen_last (st : Status) (w : Word) : (st.clearSeen w).last = st.last := rfl

/-- An error never records OK (R200). -/
@[simp] theorem ErrorKind.toLast_ne_ok (e : ErrorKind) : e.toLast ≠ .ok := by
  cases e <;> decide

/-! ### The ends of a command -/

/-- A command that completes answers the state with LAST OK (R205). -/
theorem done_eq (t : State) : done t = .next t.complete := rfl

/-- A command that fails answers the state before it with STATUS updated (R204, R208). -/
theorem fail_eq (e : ErrorKind) (s : State) : fail e s = .next (s.raise e) := rfl

theorem done_eq_next {t t' : State} (h : done t = .next t') : t' = t.complete := by
  cases h; rfl

theorem fail_eq_next {e : ErrorKind} {s t' : State} (h : fail e s = .next t') : t' = s.raise e := by
  cases h; rfl

/-! ### The guarded read -/

theorem intArg_of_kind {s : State} {i : SReg} (h : (s.getS i).kind = true) : intArg s i = some (s.getS i).data := by
  simp [intArg, h]

theorem intArg_of_no_kind {s : State} {i : SReg} (h : (s.getS i).kind = false) : intArg s i = none := by
  simp [intArg, h]

/-- With kind 1 a guarded command completes with its effect on the host integer (R11, R205). -/
theorem withInt_of_kind {s : State} {i : SReg} (h : (s.getS i).kind = true) (f : Word → State) :
    withInt s i f = .next (f (s.getS i).data).complete := by
  simp [withInt, intArg_of_kind h, done]

/-- With kind 0 a guarded command ends with TypeError (R202, R204). -/
theorem withInt_of_no_kind {s : State} {i : SReg} (h : (s.getS i).kind = false) (f : Word → State) :
    withInt s i f = .next (s.raise .typeError) := by
  simp [withInt, intArg_of_no_kind h, fail]

/-- Everything a guarded command can do. -/
theorem withInt_cases {s t : State} {i : SReg} {f : Word → State} (h : withInt s i f = .next t) :
    ((s.getS i).kind = true ∧ t = (f (s.getS i).data).complete) ∨
    ((s.getS i).kind = false ∧ t = s.raise .typeError) := by
  cases hk : (s.getS i).kind with
  | true => rw [withInt_of_kind hk] at h; cases h; exact .inl ⟨rfl, rfl⟩
  | false => rw [withInt_of_no_kind hk] at h; cases h; exact .inr ⟨rfl, rfl⟩

/-! ### Construction from bytes -/

/-- Everything a construction from bytes can do (R102, R103). -/
theorem fromBytes_cases {order : Quad → Word} {d : VReg} {addr : BufAddr} {len : Fin 16} {s t : State}
    (h : fromBytes order d addr len s = .next t) :
    (len = 4 ∧ t = (s.setV d (Value.ofWord (order (s.readQuad addr)) noOvf)).complete) ∨
    (len ≠ 4 ∧ t = s.raise .rangeError) := by
  unfold fromBytes at h
  split at h
  · exact .inl ⟨‹_›, done_eq_next h⟩
  · exact .inr ⟨‹_›, fail_eq_next h⟩

/-- Everything TOI64 can do (R107, R68). -/
theorem execToi64_cases {d a : VReg} {s t : State} (h : execToi64 d a s = .next t) :
    (evenReg d = true ∧ t = ((s.setV d ⟨signLimb (s.getV a), signLimb (s.getV a), noOvf⟩).setV (pairReg d)
      ⟨(s.getV a).hi, (s.getV a).lo, noOvf⟩).complete) ∨
    (evenReg d = false ∧ t = s.raise .illegal) := by
  unfold execToi64 at h
  split at h
  · exact .inl ⟨‹_›, done_eq_next h⟩
  · exact .inr ⟨by simpa using ‹¬evenReg d = true›, fail_eq_next h⟩

/-! ### Values -/

@[simp] theorem Value.ofWord_hi (x o : Word) : (Value.ofWord x o).hi = hiLimb x := rfl
@[simp] theorem Value.ofWord_lo (x o : Word) : (Value.ofWord x o).lo = loLimb x := rfl
@[simp] theorem Value.ofWord_ovf (x o : Word) : (Value.ofWord x o).ovf = o := rfl

/-- `u32(mk(x, o)) = x` (R10). -/
@[simp] theorem Value.u32_ofWord (x o : Word) : (Value.ofWord x o).u32 = x := by
  apply BitVec.eq_of_getLsbD_eq
  intro i hi
  simp only [Value.u32, Value.ofWord, hiLimb, loLimb, BitVec.getLsbD_append, BitVec.getLsbD_extractLsb']
  grind

@[simp] theorem hiLimb_u32 (v : Value) : hiLimb v.u32 = v.hi := by
  apply BitVec.eq_of_getLsbD_eq
  intro i hi
  simp only [Value.u32, hiLimb, BitVec.getLsbD_append, BitVec.getLsbD_extractLsb']
  grind

@[simp] theorem loLimb_u32 (v : Value) : loLimb v.u32 = v.lo := by
  apply BitVec.eq_of_getLsbD_eq
  intro i hi
  simp only [Value.u32, loLimb, BitVec.getLsbD_append, BitVec.getLsbD_extractLsb']
  grind

@[simp] theorem synthesized_u32 (n : Word) : (synthesized n).u32 = n := Value.u32_ofWord n noOvf
@[simp] theorem synthesized_ovf (n : Word) : (synthesized n).ovf = 0 := rfl

/-- Two values are equal when their logical values and accumulators are. -/
theorem Value.ext_u32 {v w : Value} (h : v.u32 = w.u32) (ho : v.ovf = w.ovf) : v = w := by
  have hh : v.hi = w.hi := by rw [← hiLimb_u32 v, h, hiLimb_u32]
  have hl : v.lo = w.lo := by rw [← loLimb_u32 v, h, loLimb_u32]
  cases v; cases w; simp_all

/-- `u32(v)` as a number: `hi * 2^16 + lo` (R21). -/
theorem Value.u32_toNat (v : Value) : v.u32.toNat = v.hi.toNat * 65536 + v.lo.toNat := by
  rw [Value.u32, BitVec.toNat_append, Nat.shiftLeft_eq, Nat.mul_comm, ← Nat.two_pow_add_eq_or_of_lt v.lo.isLt, Nat.mul_comm]

theorem hiLimb_toNat (x : Word) : (hiLimb x).toNat = x.toNat / 65536 := by
  have := x.isLt
  simp only [hiLimb, BitVec.extractLsb'_toNat, Nat.shiftRight_eq_div_pow]
  omega

theorem loLimb_toNat (x : Word) : (loLimb x).toNat = x.toNat % 65536 := by
  simp [loLimb, BitVec.extractLsb'_toNat]

/-! ### The host map -/

/-- CMD is reached by a 32-bit transaction at 0x148 and by nothing else (R49). -/
theorem hostPort_eq_cmd_iff {addr : HostAddr} {width : Nat} : hostPort addr width = .cmd ↔ addr = cmdAddr ∧ width = 32 := by
  have key : addr = cmdAddr ↔ addr.toNat = 0x148 := ⟨fun h => h ▸ rfl, fun h => BitVec.eq_of_toNat_eq h⟩
  rw [key]
  unfold hostPort
  split_ifs <;> simp <;> omega

/-- STATUS is reached by a 32-bit transaction at 0x144 and by nothing else (R49). -/
theorem hostPort_eq_status_iff {addr : HostAddr} {width : Nat} : hostPort addr width = .status ↔ addr = 0x144 ∧ width = 32 := by
  have key : addr = 0x144 ↔ addr.toNat = 0x144 := ⟨fun h => h ▸ rfl, fun h => BitVec.eq_of_toNat_eq h⟩
  rw [key]
  unfold hostPort
  split_ifs <;> simp <;> omega

/-- Which transactions match no row (R50). -/
theorem hostPort_eq_reserved_iff {addr : HostAddr} {width : Nat} : hostPort addr width = .reserved ↔
    ¬(width = 8 ∧ addr.toNat < 0x100) ∧
    ¬(width = 32 ∧ 0x100 ≤ addr.toNat ∧ addr.toNat ≤ 0x148 ∧ addr.toNat % 4 = 0) := by
  unfold hostPort
  split_ifs <;> simp <;> omega

/-- The byte address of BUF[a] (R49). -/
@[simp] theorem hostPort_buf (a : BufAddr) : hostPort (BitVec.ofNat 12 a.toNat) 8 = .buf a := by
  have h : a.toNat < 256 := a.isLt
  have e : (BitVec.ofNat 12 a.toNat).toNat = a.toNat := by simp only [BitVec.toNat_ofNat]; omega
  rw [hostPort, if_pos rfl, e, if_pos h, BitVec.ofNat_toNat, BitVec.setWidth_eq]

/-- The word address of SDATA[i] (R49). -/
@[simp] theorem hostPort_sdata (i : SReg) : hostPort (BitVec.ofNat 12 (0x100 + 4 * i.val)) 32 = .sdata i := by
  revert i
  decide

@[simp] theorem hostPort_cmd : hostPort cmdAddr 32 = .cmd := by decide
@[simp] theorem hostPort_status : hostPort 0x144 32 = .status := by decide
@[simp] theorem hostPort_skind : hostPort 0x140 32 = .skind := by decide

/-! ### The command step, the transactions and the step -/

theorem issue_of_ok {w : Word} {i : Instr} (h : decode w = .ok i) (s : State) : issue w s = exec i s := by
  simp [issue, h]

theorem issue_of_error {w : Word} {e : DecodeError} (h : decode w = .error e) (s : State) :
    issue w s = .next (s.raise .illegal) := by
  simp [issue, h, fail]

theorem step_nil {s : State} (h : s.pending = []) : step s = .next s := by
  simp [step, h]

theorem step_cons {s : State} {e : HostEvent} {rest : List HostEvent} (h : s.pending = e :: rest) :
    step s = serve e { s with pending := rest } := by
  simp [step, h]

/-- Everything serving an input can do. -/
theorem serve_cases {e : HostEvent} {s t : State} (h : serve e s = .next t) :
    (∃ addr width, e = .read addr width ∧ t = s.returnRead (hostRead s (hostPort addr width))) ∨
    (∃ addr width data, e = .write addr width data ∧ hostWrite (hostPort addr width) data s = .next t) ∨
    ((e = .reset ∨ ∃ w, e = .powerOn w) ∧ t = s.resetUnit) := by
  cases e with
  | read addr width => cases h; exact .inl ⟨addr, width, rfl, rfl⟩
  | write addr width data => exact .inr (.inl ⟨addr, width, data, rfl, h⟩)
  | reset => cases h; exact .inr (.inr ⟨.inl rfl, rfl⟩)
  | powerOn w => cases w <;> (cases h; exact .inr (.inr ⟨.inr ⟨_, rfl⟩, rfl⟩))

/-- Everything a host write can do. -/
theorem hostWrite_cases {p : Port} {data : Word} {s t : State} (h : hostWrite p data s = .next t) :
    (∃ a, p = .buf a ∧ t = s.setByte a (data.extractLsb' 0 8)) ∨
    (∃ i, p = .sdata i ∧ t = s.setInt i data) ∨
    (p = .skind ∧ t = s.setKinds data) ∨
    (p = .status ∧ t = { s with status := s.status.clearSeen data }) ∨
    (p = .cmd ∧ issue data s = .next t) ∨
    (p = .reserved ∧ t = s) := by
  cases p <;> first
    | (cases h; simp)
    | simpa [hostWrite] using h

/-- Everything the command step can do. -/
theorem issue_cases {w : Word} {s t : State} (h : issue w s = .next t) :
    (∃ i, decode w = .ok i ∧ exec i s = .next t) ∨
    (∃ e, decode w = .error e ∧ t = s.raise .illegal) := by
  cases hd : decode w with
  | ok i => rw [issue_of_ok hd] at h; exact .inl ⟨i, rfl, h⟩
  | error e => rw [issue_of_error hd] at h; cases h; exact .inr ⟨e, rfl, rfl⟩

/-- A run of one step more, from where the first step leads. -/
theorem core_run_succ {s t : State} (h : step s = .next t) (k : Nat) : Sys2Proof.core.run (k + 1) s = Sys2Proof.core.run k t := by
  have hs : Sys2Proof.core.step s = .next t := h
  simp only [Host.Core.run, hs]

/-- Everything a step can do: it stays idle, or it serves the oldest input. -/
theorem step_cases {s t : State} (h : step s = .next t) :
    (s.pending = [] ∧ t = s) ∨ (∃ e rest, s.pending = e :: rest ∧ serve e { s with pending := rest } = .next t) := by
  cases hp : s.pending with
  | nil => rw [step_nil hp] at h; cases h; exact .inl ⟨rfl, rfl⟩
  | cons e rest => rw [step_cons hp] at h; exact .inr ⟨e, rest, rfl, h⟩

end Sys2Proof.Machine
end

