-- ==== Sys2Proof/Laws/Frame.lean ====
section
/-! SUPPORT. Frames and ends of commands in the terms of Sys2Proof/Safety.lean: what each shape of command (one V destination,
a pair, one S destination, a 4-byte store, a guarded read, an error) changes, proved once. -/

namespace Sys2Proof.Machine

/-! ### Frames of the updates -/

theorem frame_setV (s : State) (d : VReg) (v : Value) : Frame [d] [] [] s (s.setV d v).complete where
  vregs r hr := by simpa using State.getV_setV_of_ne s v (by simpa using hr)
  sregs _ _ := rfl
  bytes _ _ := rfl
  cfg := rfl
  pending := rfl
  reads := rfl

theorem frame_setV_setV (s : State) (d e : VReg) (v w : Value) : Frame [d, e] [] [] s ((s.setV d v).setV e w).complete where
  vregs r hr := by
    simp only [List.mem_cons, List.not_mem_nil, or_false, not_or] at hr
    simp [hr.1, hr.2]
  sregs _ _ := rfl
  bytes _ _ := rfl
  cfg := rfl
  pending := rfl
  reads := rfl

theorem frame_setInt (s : State) (d : SReg) (x : Word) : Frame [] [d] [] s (s.setInt d x).complete where
  vregs _ _ := rfl
  sregs r hr := by simpa using State.getS_setInt_of_ne s x (by simpa using hr)
  bytes _ _ := rfl
  cfg := rfl
  pending := rfl
  reads := rfl

theorem frame_writeQuad (s : State) (addr : BufAddr) (q : Quad) : Frame [] [] (quadAddrs addr) s (s.writeQuad addr q).complete where
  vregs _ _ := rfl
  sregs _ _ := rfl
  bytes _ ha := State.byte_writeQuad_of_not_mem s q ha
  cfg := rfl
  pending := rfl
  reads := rfl

/-- An error changes no register and no byte (R204). -/
theorem frame_raise (vs : List VReg) (ss : List SReg) (stored : List BufAddr) (s : State) (e : ErrorKind) :
    Frame vs ss stored s (s.raise e) where
  vregs _ _ := rfl
  sregs _ _ := rfl
  bytes _ _ := rfl
  cfg := rfl
  pending := rfl
  reads := rfl

/-! ### STATUS -/

theorem statusCompleted_complete {s t : State} (h : t.status = s.status) : StatusCompleted s t.complete where
  last := rfl
  rangeSeen := by simp [h]
  typeSeen := by simp [h]
  illegalSeen := by simp [h]

theorem statusRaised_raise (s : State) (e : ErrorKind) : StatusRaised e s (s.raise e) := by
  cases e <;> simp [StatusRaised, State.raise, Status.onError, ErrorKind.toLast]

theorem onlyStatusChanged_raise (s : State) (e : ErrorKind) : OnlyStatusChanged s (s.raise e) := rfl

/-! ### Shapes of commands -/

/-- A command that fails raises its error (R204). -/
theorem raises_of_fail {e : ErrorKind} {i : Instr} {s : State} (h : exec i s = fail e s) : Raises e i s :=
  ⟨s.raise e, h, rfl, statusRaised_raise s e⟩

/-- A command with one V destination completes. -/
theorem completes_of_setV {i : Instr} {s : State} {d : VReg} {v : Value} {post : State → Prop}
    (h : exec i s = done (s.setV d v)) (hp : post (s.setV d v).complete) : Completes i s [d] [] [] post :=
  ⟨_, h, hp, frame_setV s d v, statusCompleted_complete rfl⟩

/-- A command with one S destination completes. -/
theorem completes_of_setInt {i : Instr} {s : State} {d : SReg} {x : Word} {post : State → Prop}
    (h : exec i s = done (s.setInt d x)) (hp : post (s.setInt d x).complete) : Completes i s [] [d] [] post :=
  ⟨_, h, hp, frame_setInt s d x, statusCompleted_complete rfl⟩

/-- A command that stores four bytes completes. -/
theorem completes_of_writeQuad {i : Instr} {s : State} {addr : BufAddr} {q : Quad} {post : State → Prop}
    (h : exec i s = done (s.writeQuad addr q)) (hp : post (s.writeQuad addr q).complete) :
    Completes i s [] [] (quadAddrs addr) post :=
  ⟨_, h, hp, frame_writeQuad s addr q, statusCompleted_complete rfl⟩

/-- A guarded command, from what it does with kind 1 (R11, R202). -/
theorem guarded_of_withInt {i : Instr} {b : SReg} {s : State} {effect : Word → State} {ok : Word → Prop}
    (h : exec i s = withInt s b effect)
    (hok : exec i s = done (effect (s.getS b).data) → ok (s.getS b).data) : Guarded i b s ok :=
  ⟨fun hk => ⟨s.raise .typeError, by rw [h, withInt_of_no_kind hk], rfl, statusRaised_raise s .typeError⟩,
    fun hk => hok (by rw [h, withInt_of_kind hk, done_eq])⟩

end Sys2Proof.Machine
end

