-- ==== Sys2Proof/Laws/PerInstr.lean ====
section
/-! SUPPORT. The laws stated once per instruction: the encoding of every well-formed instruction matches its row of the
opcode map (spec/30_encoding.md R62, R65, R75). -/

namespace Sys2Proof.Laws

/-- The word of a well-formed instruction, masked by its format, is its opcode and zeros (R62, R71). -/
def EncodeMatchesRow.Statement (i : Instr) : Prop :=
  i.WellFormed → encode i &&& i.fmt.mask = i.opc ++ 0#24

/-- Masking a packed word, from the check of each field. -/
theorem pack_matches {f : Fmt} {o : BitVec 8} {d a b : BitVec 4} {m : BitVec 12}
    (hd : d &&& f.mask.extractLsb' 20 4 = 0) (ha : a &&& f.mask.extractLsb' 16 4 = 0)
    (hb : b &&& f.mask.extractLsb' 12 4 = 0) (hm : m &&& f.mask.extractLsb' 0 12 = 0) :
    pack o d a b m &&& f.mask = o ++ 0#24 := by
  have key : pack o d a b m &&& f.mustBeZero = 0 := by
    rw [f.mustBeZero_eq_pack, pack_and, hd, ha, hb, hm]
    simp [pack]
  simpa using (mustBeZero_clear_iff f _).mp key

/-! ### One lemma per format -/

theorem pack_matches_r3 (o : BitVec 8) (d a b : BitVec 4) : pack o d a b 0 &&& Fmt.r3.mask = o ++ 0#24 :=
  pack_matches (f := .r3) (by simp [Fmt.mask]) (by simp [Fmt.mask]) (by simp [Fmt.mask]) (by simp)

theorem pack_matches_rs (o : BitVec 8) (d a b : BitVec 4) : pack o d a b 0 &&& Fmt.rs.mask = o ++ 0#24 :=
  pack_matches_r3 o d a b

theorem pack_matches_c (o : BitVec 8) (d a b : BitVec 4) : pack o d a b 0 &&& Fmt.c.mask = o ++ 0#24 :=
  pack_matches_r3 o d a b

theorem pack_matches_iv (o : BitVec 8) (d a : BitVec 4) : pack o d a 0 0 &&& Fmt.iv.mask = o ++ 0#24 :=
  pack_matches (f := .iv) (by simp [Fmt.mask]) (by simp [Fmt.mask]) (by simp) (by simp)

theorem pack_matches_xs (o : BitVec 8) (d a : BitVec 4) : pack o d a 0 0 &&& Fmt.xs.mask = o ++ 0#24 :=
  pack_matches_iv o d a

theorem pack_matches_p (o : BitVec 8) {d : VReg} (a : BitVec 4) (h : evenReg d = true) :
    pack o (regBits d) a 0 0 &&& Fmt.p.mask = o ++ 0#24 :=
  pack_matches (f := .p) (by revert d; decide) (by simp [Fmt.mask]) (by simp) (by simp)

theorem pack_matches_w (o : BitVec 8) (d a b : BitVec 4) (w : Fin 64) :
    pack o d a b (widthBits w) &&& Fmt.w.mask = o ++ 0#24 :=
  pack_matches (f := .w) (by simp [Fmt.mask]) (by simp [Fmt.mask]) (by simp [Fmt.mask]) (by revert w; decide)

theorem pack_matches_i (o : BitVec 8) (d a : BitVec 4) (m : BitVec 12) : pack o d a 0 m &&& Fmt.i.mask = o ++ 0#24 :=
  pack_matches (f := .i) (by simp [Fmt.mask]) (by simp [Fmt.mask]) (by simp) (by simp [Fmt.mask])

theorem pack_matches_bl (o : BitVec 8) (d : BitVec 4) (m : BitVec 12) : pack o d 0 0 m &&& Fmt.bl.mask = o ++ 0#24 :=
  pack_matches (f := .bl) (by simp [Fmt.mask]) (by simp) (by simp) (by simp [Fmt.mask])

theorem pack_matches_bs (o : BitVec 8) (a : BitVec 4) (addr : BufAddr) :
    pack o 0 a 0 (0#4 ++ addr) &&& Fmt.bs.mask = o ++ 0#24 :=
  pack_matches (f := .bs) (by simp) (by simp [Fmt.mask]) (by simp) (by revert addr; decide)

/-! ### One lemma per instruction -/

theorem EncodeMatchesRow.fromint (d : VReg) (a : SReg) : EncodeMatchesRow.Statement (.fromint d a) := fun _ => pack_matches_iv _ _ _

theorem EncodeMatchesRow.fromb (d : VReg) (addr : BufAddr) (len : Fin 16) : EncodeMatchesRow.Statement (.fromb d addr len) := fun _ => pack_matches_bl _ _ _

theorem EncodeMatchesRow.fromrb (d : VReg) (addr : BufAddr) (len : Fin 16) : EncodeMatchesRow.Statement (.fromrb d addr len) := fun _ => pack_matches_bl _ _ _

theorem EncodeMatchesRow.tob (a : VReg) (addr : BufAddr) : EncodeMatchesRow.Statement (.tob a addr) := fun _ => pack_matches_bs _ _ _

theorem EncodeMatchesRow.torb (a : VReg) (addr : BufAddr) : EncodeMatchesRow.Statement (.torb a addr) := fun _ => pack_matches_bs _ _ _

theorem EncodeMatchesRow.toint (d : SReg) (a : VReg) : EncodeMatchesRow.Statement (.toint d a) := fun _ => pack_matches_xs _ _ _

theorem EncodeMatchesRow.toi64 (d a : VReg) : EncodeMatchesRow.Statement (.toi64 d a) := fun h => pack_matches_p _ _ h

theorem EncodeMatchesRow.add (d a b : VReg) : EncodeMatchesRow.Statement (.add d a b) := fun _ => pack_matches_r3 _ _ _ _

theorem EncodeMatchesRow.addh (d a : VReg) (b : SReg) : EncodeMatchesRow.Statement (.addh d a b) := fun _ => pack_matches_rs _ _ _ _

theorem EncodeMatchesRow.sub (d a b : VReg) : EncodeMatchesRow.Statement (.sub d a b) := fun _ => pack_matches_r3 _ _ _ _

theorem EncodeMatchesRow.subh (d a : VReg) (b : SReg) : EncodeMatchesRow.Statement (.subh d a b) := fun _ => pack_matches_rs _ _ _ _

theorem EncodeMatchesRow.mul (d a b : VReg) (w : Fin 64) : EncodeMatchesRow.Statement (.mul d a b w) := fun _ => pack_matches_w _ _ _ _ _

theorem EncodeMatchesRow.mulh (d a : VReg) (b : SReg) (w : Fin 64) : EncodeMatchesRow.Statement (.mulh d a b w) := fun _ => pack_matches_w _ _ _ _ _

theorem EncodeMatchesRow.rdovf (d : SReg) (a : VReg) : EncodeMatchesRow.Statement (.rdovf d a) := fun _ => pack_matches_xs _ _ _

theorem EncodeMatchesRow.and (d a b : VReg) : EncodeMatchesRow.Statement (.and d a b) := fun _ => pack_matches_r3 _ _ _ _

theorem EncodeMatchesRow.or (d a b : VReg) : EncodeMatchesRow.Statement (.or d a b) := fun _ => pack_matches_r3 _ _ _ _

theorem EncodeMatchesRow.xor (d a b : VReg) : EncodeMatchesRow.Statement (.xor d a b) := fun _ => pack_matches_r3 _ _ _ _

theorem EncodeMatchesRow.maskh (d a : VReg) (b : SReg) : EncodeMatchesRow.Statement (.maskh d a b) := fun _ => pack_matches_rs _ _ _ _

theorem EncodeMatchesRow.rotl (d a : VReg) (b : SReg) : EncodeMatchesRow.Statement (.rotl d a b) := fun _ => pack_matches_rs _ _ _ _

theorem EncodeMatchesRow.rotr (d a : VReg) (b : SReg) : EncodeMatchesRow.Statement (.rotr d a b) := fun _ => pack_matches_rs _ _ _ _

theorem EncodeMatchesRow.shl (d a : VReg) (b : SReg) : EncodeMatchesRow.Statement (.shl d a b) := fun _ => pack_matches_rs _ _ _ _

theorem EncodeMatchesRow.shr (d a : VReg) (b : SReg) : EncodeMatchesRow.Statement (.shr d a b) := fun _ => pack_matches_rs _ _ _ _

theorem EncodeMatchesRow.rotli (d a : VReg) (c : Int) : EncodeMatchesRow.Statement (.rotli d a c) := fun _ => pack_matches_i _ _ _ _

theorem EncodeMatchesRow.rotri (d a : VReg) (c : Int) : EncodeMatchesRow.Statement (.rotri d a c) := fun _ => pack_matches_i _ _ _ _

theorem EncodeMatchesRow.shli (d a : VReg) (c : Int) : EncodeMatchesRow.Statement (.shli d a c) := fun _ => pack_matches_i _ _ _ _

theorem EncodeMatchesRow.shri (d a : VReg) (c : Int) : EncodeMatchesRow.Statement (.shri d a c) := fun _ => pack_matches_i _ _ _ _

theorem EncodeMatchesRow.cmph (d : SReg) (a : VReg) (b : SReg) : EncodeMatchesRow.Statement (.cmph d a b) := fun _ => pack_matches_c _ _ _ _

theorem EncodeMatchesRow.gth (d : SReg) (a : VReg) (b : SReg) : EncodeMatchesRow.Statement (.gth d a b) := fun _ => pack_matches_c _ _ _ _

theorem EncodeMatchesRow.lth (d : SReg) (a : VReg) (b : SReg) : EncodeMatchesRow.Statement (.lth d a b) := fun _ => pack_matches_c _ _ _ _

end Sys2Proof.Laws
end

