-- ==== Sys2Proof/Tests/Slice0.lean ====
section
/-! SUPPORT. Tests of the model. Words are written out from spec/30_encoding.md R61 to R65; expected results come from the
examples of the instruction rules and from spec/95_test_vectors.md. The last part shows, for each statement that has
hypotheses, a state and operands that meet them all. -/

namespace Sys2Proof.Tests

open Sys2Proof Sys2Proof.Machine

/-! ### WellFormed refuses -/

theorem test_wf_refuses_odd_pair : ¬(Instr.toi64 3 1).WellFormed ∧ ¬(Instr.toi64 15 15).WellFormed := by decide
theorem test_wf_refuses_rotli_amount : ¬(Instr.rotli 2 1 2048).WellFormed ∧ ¬(Instr.rotli 2 1 (-2049)).WellFormed := by
  decide
theorem test_wf_refuses_rotri_amount : ¬(Instr.rotri 2 1 2048).WellFormed ∧ ¬(Instr.rotri 2 1 (-2049)).WellFormed := by
  decide
theorem test_wf_refuses_shli_amount : ¬(Instr.shli 2 1 2048).WellFormed ∧ ¬(Instr.shli 2 1 (-2049)).WellFormed := by
  decide
theorem test_wf_refuses_shri_amount : ¬(Instr.shri 2 1 2048).WellFormed ∧ ¬(Instr.shri 2 1 (-2049)).WellFormed := by
  decide
theorem test_wf_accepts_boundaries : (Instr.toi64 14 3).WellFormed ∧ (Instr.rotli 2 1 2047).WellFormed ∧
    (Instr.shri 2 1 (-2048)).WellFormed := by decide

/-! ### Decoding words written out by hand -/

theorem test_decode_fromint : decodeTableWord 32 0b00000001_0001_0010_0000_000000000000 = some (.fromint 1 2) := by decide
theorem test_decode_fromb : decodeTableWord 32 0b00000010_0001_0000_0000_0011_11111101 = some (.fromb 1 253 3) := by decide
theorem test_decode_fromrb : decodeTableWord 32 0b00000011_0010_0000_0000_0100_00000001 = some (.fromrb 2 1 4) := by decide
theorem test_decode_tob : decodeTableWord 32 0b00000100_0000_0010_0000_0000_00010000 = some (.tob 2 16) := by decide
theorem test_decode_torb : decodeTableWord 32 0b00000101_0000_0001_0000_0000_11111110 = some (.torb 1 254) := by decide
theorem test_decode_toint : decodeTableWord 32 0b00000110_0011_0001_0000_000000000000 = some (.toint 3 1) := by decide
theorem test_decode_toi64 : decodeTableWord 32 0b00000111_0100_0001_0000_000000000000 = some (.toi64 4 1) := by decide
theorem test_decode_add : decodeTableWord 32 0b00010000_0011_0001_0010_000000000000 = some (.add 3 1 2) := by decide
theorem test_decode_addh : decodeTableWord 32 0b00010001_0010_0001_0101_000000000000 = some (.addh 2 1 5) := by decide
theorem test_decode_sub : decodeTableWord 32 0b00010010_0011_0001_0010_000000000000 = some (.sub 3 1 2) := by decide
theorem test_decode_subh : decodeTableWord 32 0b00010011_0100_0001_0010_000000000000 = some (.subh 4 1 2) := by decide
theorem test_decode_mul : decodeTableWord 32 0b00010100_0011_0001_0010_000000_100001 = some (.mul 3 1 2 33) := by decide
theorem test_decode_mulh : decodeTableWord 32 0b00010101_0010_0001_0011_000000_000000 = some (.mulh 2 1 3 0) := by decide
theorem test_decode_rdovf : decodeTableWord 32 0b00010110_0100_0011_0000_000000000000 = some (.rdovf 4 3) := by decide
theorem test_decode_and : decodeTableWord 32 0b00100000_0011_0001_0010_000000000000 = some (.and 3 1 2) := by decide
theorem test_decode_or : decodeTableWord 32 0b00100001_0011_0001_0010_000000000000 = some (.or 3 1 2) := by decide
theorem test_decode_xor : decodeTableWord 32 0b00100010_0011_0001_0010_000000000000 = some (.xor 3 1 2) := by decide
theorem test_decode_maskh : decodeTableWord 32 0b00100011_0100_0001_0010_000000000000 = some (.maskh 4 1 2) := by decide
theorem test_decode_rotl : decodeTableWord 32 0b00110000_0010_0001_0011_000000000000 = some (.rotl 2 1 3) := by decide
theorem test_decode_rotr : decodeTableWord 32 0b00110001_0010_0001_0011_000000000000 = some (.rotr 2 1 3) := by decide
theorem test_decode_shl : decodeTableWord 32 0b00110010_0010_0001_0011_000000000000 = some (.shl 2 1 3) := by decide
theorem test_decode_shr : decodeTableWord 32 0b00110011_0010_0001_0011_000000000000 = some (.shr 2 1 3) := by decide
theorem test_decode_rotli : decodeTableWord 32 0b00111000_0010_0001_0000_000000010000 = some (.rotli 2 1 16) := by decide
theorem test_decode_rotri : decodeTableWord 32 0b00111001_0010_0001_0000_111111111000 = some (.rotri 2 1 (-8)) := by decide
theorem test_decode_shli : decodeTableWord 32 0b00111010_0010_0001_0000_011111111111 = some (.shli 2 1 2047) := by decide
theorem test_decode_shri : decodeTableWord 32 0b00111011_0010_0001_0000_100000000000 = some (.shri 2 1 (-2048)) := by
  decide
theorem test_decode_cmph : decodeTableWord 32 0b01000000_0011_0001_0010_000000000000 = some (.cmph 3 1 2) := by decide
theorem test_decode_gth : decodeTableWord 32 0b01000001_0011_0001_0010_000000000000 = some (.gth 3 1 2) := by decide
theorem test_decode_lth : decodeTableWord 32 0b01000010_0011_0001_0010_000000000000 = some (.lth 3 1 2) := by decide

/-- R66 to R69: unassigned opcodes and must-be-zero bits. -/
theorem test_decode_refuses : [0x00000000, 0xFFFFFFFF, 0x08000000, 0x34000000, 0x43000000, 0x07310000, 0x10312001, 0x14312040,
    0x01110001, 0x02110400, 0x04120010, 0x38211010].all (fun w => decodeTableWord 32 w == none) = true := by decide

/-! ### Encoding (the examples of R75) and assembly (R72 to R74) -/

theorem test_encode_examples : encode (.rotli 2 1 16) = 0x38210010 ∧ encode (.shli 3 3 (-1)) = 0x3A330FFF := by decide
theorem test_assemble_lines :
    assembleLine "rotli v2, v1, -8 ; left" = .command (.rotli 2 1 (-8)) ∧
    assembleLine "FROMB v1, 0xFD" = .command (.fromb 1 253 4) ∧
    assembleLine "CLR v3" = .command (.shli 3 3 32) ∧ assembleLine " ; nothing" = .empty ∧
    assembleLine "ROTLI v2, v1, 2048" = .refused ∧ assembleLine "ADD s1, v1, v2" = .refused := by decide

/-! ### One command from a small state -/

/-- The reset state with V1, V2 and S1 set. -/
def start (v1 v2 : Value) (s1 : Scalar) : State :=
  { (State.reset.setV 1 v1).setV 2 v2 with sreg := State.reset.sreg.set 1 s1 }

/-- A host integer the guard accepted. -/
def int (x : Word) : Scalar := ⟨x, true⟩

/-- The state after the host's CMD write of a word. -/
def after (w : Nat) (s : State) : State :=
  match step (s.withFetchWord 32 w) with
  | .next t => t
  | .fault _ => s
  | .refused _ => s

/-- The reset state with the bytes AA BB CC DD at BUF[253], BUF[254], BUF[255], BUF[0]. -/
def bytes : State := (((State.reset.setByte 253 0xAA).setByte 254 0xBB).setByte 255 0xCC).setByte 0 0xDD

theorem test_fromint : (after 0x01310000 (start ⟨0, 0, 0⟩ ⟨0, 0, 0⟩ (int 0x00010002))).getV 3 = ⟨1, 2, 0⟩ := by decide
theorem test_fromint_type_error :
    let t := after 0x01110000 (start ⟨0xAAAA, 0x5555, 3⟩ ⟨0, 0, 0⟩ ⟨5, false⟩)
    t.getV 1 = ⟨0xAAAA, 0x5555, 3⟩ ∧ t.status.word = 0x202 := by decide
theorem test_fromb : (after 0x021004FD bytes).getV 1 = ⟨0xAABB, 0xCCDD, 0⟩ := by decide
theorem test_fromb_range_error : (after 0x02100500 bytes).status.word = 0x101 := by decide
theorem test_fromrb : (after 0x031004FD bytes).getV 1 = ⟨0xDDCC, 0xBBAA, 0⟩ := by decide
theorem test_fromrb_range_error : (after 0x03100100 bytes).status.word = 0x101 := by decide
theorem test_tob : (after 0x040100FE (start ⟨0xA1B2, 0xC3D4, 6⟩ ⟨0, 0, 0⟩ (int 0))).buf =
    [(0, 0xC3), (1, 0xD4), (254, 0xA1), (255, 0xB2)] := by decide
theorem test_torb : (after 0x050100FE (start ⟨0xA1B2, 0xC3D4, 6⟩ ⟨0, 0, 0⟩ (int 0))).buf =
    [(0, 0xB2), (1, 0xA1), (254, 0xD4), (255, 0xC3)] := by decide
theorem test_toint : (after 0x06310000 (start ⟨1, 2, 9⟩ ⟨0, 0, 0⟩ (int 0))).getS 3 = ⟨0x00010002, true⟩ := by decide
theorem test_toi64 :
    let t := after 0x07410000 (start ⟨0x8000, 1, 5⟩ ⟨0, 0, 0⟩ (int 0))
    t.getV 4 = ⟨0xFFFF, 0xFFFF, 0⟩ ∧ t.getV 5 = ⟨0x8000, 1, 0⟩ := by decide
theorem test_toi64_source_in_pair :
    let t := after 0x07220000 (start ⟨0, 0, 0⟩ ⟨0x7FFF, 0xFFFF, 2⟩ (int 0))
    t.getV 2 = ⟨0, 0, 0⟩ ∧ t.getV 3 = ⟨0x7FFF, 0xFFFF, 0⟩ := by decide

theorem test_add_wraps : (after 0x10312000 (start ⟨0xFFFF, 0xFFFF, 2⟩ ⟨0, 1, 3⟩ (int 0))).getV 3 = ⟨0, 0, 6⟩ := by decide
theorem test_add_carries_between_limbs :
    (after 0x10312000 (start ⟨0, 0xFFFF, 0xFFFFFFFF⟩ ⟨0, 1, 2⟩ (int 0))).getV 3 = ⟨1, 0, 1⟩ := by decide
theorem test_addh : (after 0x11211000 (start ⟨0, 5, 4⟩ ⟨0, 0, 0⟩ (int 0xFFFFFFFF))).getV 2 = ⟨0, 4, 5⟩ := by decide
theorem test_addh_type_error : (after 0x11211000 (start ⟨0, 5, 4⟩ ⟨7, 7, 7⟩ ⟨1, false⟩)).getV 2 = ⟨7, 7, 7⟩ := by decide
theorem test_sub : (after 0x12312000 (start ⟨0, 1, 9⟩ ⟨1, 0, 9⟩ (int 0))).getV 3 = ⟨0xFFFF, 1, 0⟩ := by decide
theorem test_subh : (after 0x13211000 (start ⟨1, 0, 4⟩ ⟨0, 0, 0⟩ (int 1))).getV 2 = ⟨0, 0xFFFF, 0⟩ := by decide
set_option maxRecDepth 8000 in
theorem test_mul_full_width :
    (after 0x14312020 (start ⟨0, 3, 1⟩ ⟨0x8000, 2, 1⟩ (int 0))).getV 3 = ⟨0x8000, 6, 0⟩ := by decide
set_option maxRecDepth 8000 in
theorem test_mul_default_width : (after 0x14312000 (start ⟨0, 3, 0⟩ ⟨0x8000, 2, 0⟩ (int 0))).getV 3 = ⟨0, 6, 0⟩ := by decide
set_option maxRecDepth 8000 in
theorem test_mulh : (after 0x15211020 (start ⟨0xFFFF, 0xFFFE, 0⟩ ⟨0, 0, 0⟩ (int 3))).getV 2 = ⟨0xFFFF, 0xFFFA, 0⟩ := by
  decide
set_option maxRecDepth 8000 in
theorem test_mulh_configured_width :
    (after 0x15211000 { start ⟨0, 5, 0⟩ ⟨0, 0, 0⟩ (int 0x00030002) with cfg := ⟨16⟩ }).getV 2 = ⟨0, 0xA, 0⟩ := by decide
theorem test_rdovf : (after 0x16410000 (start ⟨1, 2, 0xFFFFFFFF⟩ ⟨0, 0, 0⟩ (int 0))).getS 4 = ⟨0xFFFFFFFF, true⟩ := by
  decide

theorem test_and : (after 0x20312000 (start ⟨0xFF00, 0x1234, 3⟩ ⟨0x0FF0, 0xFF00, 6⟩ (int 0))).getV 3 = ⟨0x0F00, 0x1200, 2⟩ := by
  decide
theorem test_or : (after 0x21312000 (start ⟨0xFF00, 0x1234, 3⟩ ⟨0x0FF0, 0xFF00, 6⟩ (int 0))).getV 3 = ⟨0xFFF0, 0xFF34, 7⟩ := by
  decide
theorem test_xor : (after 0x22312000 (start ⟨0xFFFF, 0xFFFF, 1⟩ ⟨0x0F0F, 0x0F0F, 3⟩ (int 0))).getV 3 = ⟨0xF0F0, 0xF0F0, 2⟩ := by
  decide
theorem test_maskh : (after 0x23211000 (start ⟨0x1234, 0x5678, 9⟩ ⟨0, 0, 0⟩ (int 0xFF00FF00))).getV 2 = ⟨0x1200, 0x5600, 0⟩ := by
  decide

theorem test_rotl : (after 0x30211000 (start ⟨0x1234, 0x5678, 1⟩ ⟨0, 0, 0⟩ (int 0x7FFFFFFF))).getV 2 = ⟨0x091A, 0x2B3C, 0⟩ := by
  decide
theorem test_rotr : (after 0x31211000 (start ⟨0x1234, 0x5678, 1⟩ ⟨0, 0, 0⟩ (int 0x7FFFFFFF))).getV 2 = ⟨0x2468, 0xACF0, 0⟩ := by
  decide
theorem test_shl_negative_redirects :
    (after 0x32211000 (start ⟨0x1234, 0x5678, 1⟩ ⟨0, 0, 0⟩ (int 0xFFFFFFFF))).getV 2 = ⟨0x091A, 0x2B3C, 0⟩ := by decide
theorem test_shl_most_negative :
    (after 0x32211000 (start ⟨0x1234, 0x5678, 1⟩ ⟨0, 0, 0⟩ (int 0x80000000))).getV 2 = ⟨0x1234, 0x5678, 0⟩ := by decide
theorem test_shr : (after 0x33211000 (start ⟨0x8234, 0x5678, 1⟩ ⟨0, 0, 0⟩ (int 16))).getV 2 = ⟨0, 0x8234, 0⟩ := by decide
theorem test_shr_clears : (after 0x33211000 (start ⟨0x1234, 0x5678, 1⟩ ⟨0, 0, 0⟩ (int 0xFFFFFFE0))).getV 2 = ⟨0, 0, 0⟩ := by
  decide
theorem test_rotli_into_other_limb :
    (after 0x38210011 (start ⟨0x8000, 1, 7⟩ ⟨0, 0, 0⟩ (int 0))).getV 2 = ⟨3, 0, 0⟩ := by decide
theorem test_rotli_negative : (after 0x38210FDF (start ⟨0x8000, 1, 7⟩ ⟨0, 0, 0⟩ (int 0))).getV 2 = ⟨0xC000, 0, 0⟩ := by decide
theorem test_rotri : (after 0x39210005 (start ⟨0x8000, 1, 7⟩ ⟨0, 0, 0⟩ (int 0))).getV 2 = ⟨0x0C00, 0, 0⟩ := by decide
theorem test_shli_modulo_64 :
    (after 0x3A210041 (start ⟨0x1234, 0x5678, 7⟩ ⟨0, 0, 0⟩ (int 0))).getV 2 = ⟨0x2468, 0xACF0, 0⟩ := by decide
theorem test_shli_negative : (after 0x3A210FFF (start ⟨0x1234, 0x5678, 7⟩ ⟨0, 0, 0⟩ (int 0))).getV 2 = ⟨0x091A, 0x2B3C, 0⟩ := by
  decide
theorem test_shri_clears : (after 0x3B210020 (start ⟨0x1234, 0x5678, 7⟩ ⟨0, 0, 0⟩ (int 0))).getV 2 = ⟨0, 0, 0⟩ := by decide
theorem test_shri : (after 0x3B21000F (start ⟨0x1234, 0x5678, 7⟩ ⟨0, 0, 0⟩ (int 0))).getV 2 = ⟨0, 0x2468, 0⟩ := by decide

theorem test_cmph_less : (after 0x40311000 (start ⟨0, 0, 5⟩ ⟨0, 0, 0⟩ (int 0xFFFFFFFF))).getS 3 = ⟨0xFFFFFFFF, true⟩ := by decide
theorem test_cmph_equal : (after 0x40311000 (start ⟨1, 2, 5⟩ ⟨0, 0, 0⟩ (int 0x00010002))).getS 3 = ⟨0, true⟩ := by decide
theorem test_gth : (after 0x41311000 (start ⟨2, 0, 5⟩ ⟨0, 0, 0⟩ (int 0x0001FFFF))).getS 3 = ⟨1, true⟩ := by decide
theorem test_lth : (after 0x42311000 (start ⟨1, 1, 5⟩ ⟨0, 0, 0⟩ (int 0x00010002))).getS 3 = ⟨1, true⟩ := by decide
theorem test_illegal : (after 0x07310000 (start ⟨1, 1, 5⟩ ⟨0, 0, 0⟩ (int 0))).status.word = 0x403 := by decide

/-! ### Transactions of the host map (R31, R32, R49, R50) -/

/-- What the reads of a list of transactions return, from reset. -/
def readsOf (events : List HostEvent) : List Word :=
  match Sys2Proof.core.run events.length { State.reset with pending := events } with
  | .next t => State.reads t
  | .fault _ => []
  | .refused _ => []

theorem test_host_bytes : readsOf [.write 0xFF 8 0xFFFFFF12, .read 0xFF 8] = [0x12] := by decide
theorem test_host_sdata_sets_kind : readsOf [.write 0x13C 32 5, .read 0x140 32, .read 0x13C 32] = [0x8000, 5] := by decide
theorem test_host_skind_masks : readsOf [.write 0x140 32 0xFFFF8005, .read 0x140 32] = [0x8005] := by decide
theorem test_host_status_clears : readsOf [cmdWrite 0, .write 0x144 32 0x400, .read 0x144 32] = [3] := by decide
theorem test_host_reserved : readsOf [.write 0x14C 32 7, .read 0x14C 32, .read 0x101 32, .read 0 16] = [0, 0, 0] := by decide
theorem test_host_reset : readsOf [.write 0x100 32 5, .reset, .read 0x100 32, .read 0x140 32] = [0, 0] := by decide

/-! ### Witnesses: the hypotheses of each statement can be met -/

/-- The reset state with one transaction to serve. -/
def pend (e : HostEvent) : State := { State.reset with pending := [e] }

/-- Two words that match a row: its unfixed bits all 0 and all 1. -/
def rowMet (matchWord mask : Word) : Bool :=
  matchWord &&& mask == matchWord && (matchWord ||| ~~~mask) &&& mask == matchWord

/-- A state whose S1 holds a host integer the guard refused. -/
def bad : State := start ⟨0x8000, 1, 7⟩ ⟨0, 3, 0⟩ ⟨5, false⟩

/-- A state whose S1 holds a host integer the guard accepted. -/
def good : State := start ⟨0x8000, 1, 7⟩ ⟨0, 3, 0⟩ (int 5)

theorem good_inv : good.Inv := ⟨by decide, by decide⟩
theorem bytes_inv : bytes.Inv := ⟨by decide, by decide⟩

/-- The two cases of a guarded command. -/
theorem guard_met : (bad.getS 1).kind = false ∧ (good.getS 1).kind = true := by decide

theorem witness_DecodeOfEncode : (Instr.toi64 14 15).WellFormed ∧ (Instr.rotli 15 0 (-2048)).WellFormed ∧
    (Instr.shri 0 15 2047).WellFormed ∧ (Instr.fromb 15 255 15).WellFormed ∧ (Instr.mul 15 15 15 63).WellFormed := by decide
theorem witness_EncodeOfDecode : decode 0x3A330FFF = .ok (.shli 3 3 (-1)) ∧ decode 0x07E00000 = .ok (.toi64 14 0) :=
  ⟨rfl, rfl⟩
theorem witness_DecodingTotalAndUnambiguous :
    (∃ r ∈ opcodeMap, (0x10312000 : Word) &&& r.fmt.mask = r.matchWord) ∧
    (∃ r ∈ opcodeMap, (0x42FFF000 : Word) &&& r.fmt.mask = r.matchWord) ∧
    (∀ r ∈ opcodeMap, (0x10312001 : Word) &&& r.fmt.mask ≠ r.matchWord) ∧
    (∀ r ∈ opcodeMap, (0x43000000 : Word) &&& r.fmt.mask ≠ r.matchWord) := by decide
theorem witness_UnassignedOpcodesRaiseIllegal :
    ([0x00000000, 0x08000000, 0x0FFFFFFF, 0x17000000, 0x1F000000, 0x24000000, 0x2F000000, 0x34000000, 0x37000000, 0x3C000000,
      0x3F000000, 0x43000000, 0xFFFFFFFF] : List Word).map (fun w : Word => (w >>> 24).toNat) =
      [0x00, 0x08, 0x0F, 0x17, 0x1F, 0x24, 0x2F, 0x34, 0x37, 0x3C, 0x3F, 0x43, 0xFF] ∧
    ∀ o ∈ [0x00, 0x08, 0x0F, 0x17, 0x1F, 0x24, 0x2F, 0x34, 0x37, 0x3C, 0x3F, 0x43, 0xFF],
      o = 0 ∨ (0x08 ≤ o ∧ o ≤ 0x0F) ∨ (0x17 ≤ o ∧ o ≤ 0x1F) ∨ (0x24 ≤ o ∧ o ≤ 0x2F) ∨ (0x34 ≤ o ∧ o ≤ 0x37) ∨
        (0x3C ≤ o ∧ o ≤ 0x3F) ∨ (0x43 ≤ o ∧ o ≤ 0xFF) := ⟨by decide, by simp⟩
theorem witness_MustBeZeroBitsRaiseIllegal :
    (∃ r ∈ opcodeMap, ((0x10312001 : Word) >>> 24).setWidth 8 = r.opc ∧
      (0x10312001 : Word) &&& (r.fmt.mask &&& 0x00FFFFFF) ≠ 0) ∧
    (∃ r ∈ opcodeMap, ((0x04FF0000 : Word) >>> 24).setWidth 8 = r.opc ∧
      (0x04FF0000 : Word) &&& (r.fmt.mask &&& 0x00FFFFFF) ≠ 0) ∧
    ((0x07100000 : Word) >>> 24).toNat = 0x07 ∧ (0x07100000 : Word).getLsbD 20 = true := by decide
theorem witness_PseudoInstructionEffects : (bad.getS 1).kind = false ∧ (good.getS 1).kind = true := guard_met
theorem witness_AssemblerRefusesAndNeverTruncates :
    (∃ row ∈ assemblyColumn, row.1 = "ROTLI" ∧ OperandsFit row.2 [.v 2, .v 1, .imm (-2048)]) ∧
    assembleOps "ROTLI" [.v 2, .v 1, .imm (-2048)] = some (.rotli 2 1 (-2048)) ∧
    assembleOps "CLR" [.v 3] = some (.shli 3 3 32) ∧ (Instr.fromrb 15 255 15).WellFormed ∧
    (("CMPH", [.s, .v, .s]) ∈ assemblyColumn ∧ [Operand.s 3, .s 1, .s 2].length = [OperandKind.s, .v, .s].length ∧
      ¬OperandsFit [.s, .v, .s] [.s 3, .s 1, .s 2]) ∧
    ((-2049 : Int) < -2048 ∧ (2047 : Int) < 2048 ∧ "SHRI" ∈ ["ROTLI", "ROTRI", "SHLI", "SHRI"]) ∧
    ((-1 : Int) < 0 ∧ (63 : Int) < 64) ∧ ((255 : Int) < 256 ∧ (15 : Int) < 16 ∧ "FROMRB" ∈ ["FROMB", "FROMRB"]) ∧
    "TORB" ∈ ["FROMB", "FROMRB", "TOB", "TORB"] ∧ (15 : VReg).val % 2 = 1 :=
  ⟨⟨("ROTLI", [.v, .v, .amount]), by decide, rfl, .cons rfl (.cons rfl (.cons rfl .nil))⟩, by decide, by decide, by decide,
    ⟨by decide, rfl, by simp [OperandsFit, OperandKind.fits]⟩, by decide, by decide, by decide, by decide, by decide⟩
theorem witness_StepRunsTheDecodedCommand :
    (pend (.write 0x148 32 0x10312000)).pending = .write 0x148 32 0x10312000 :: [] ∧
    decode 0x10312000 = .ok (.add 3 1 2) := ⟨rfl, rfl⟩
theorem witness_CmdIssuesAndReadsZero :
    (pend (.write 0x148 32 0xFFFFFFFF)).pending = .write 0x148 32 0xFFFFFFFF :: [] ∧
    (pend (.read 0x148 32)).pending = .read 0x148 32 :: [] := ⟨rfl, rfl⟩
theorem witness_IdleHoldsAllState : good.pending = [] := rfl
theorem witness_HostReadsReturnTheStoredValue :
    (pend (.read 0x0FF 8)).pending = .read (BitVec.ofNat 12 (255 : BufAddr).toNat) 8 :: [] ∧
    (pend (.read 0x000 8)).pending = .read (BitVec.ofNat 12 (0 : BufAddr).toNat) 8 :: [] ∧
    (pend (.read 0x13C 32)).pending = .read (BitVec.ofNat 12 (0x100 + 4 * (15 : SReg).val)) 32 :: [] ∧
    (pend (.read 0x100 32)).pending = .read (BitVec.ofNat 12 (0x100 + 4 * (0 : SReg).val)) 32 :: [] := by decide
theorem witness_HostWritesStoreTheValue :
    (pend (.write 0x0FF 8 0x1FF)).Inv ∧
    (pend (.write 0x0FF 8 0x1FF)).pending = .write (BitVec.ofNat 12 (255 : BufAddr).toNat) 8 0x1FF :: [] ∧
    (pend (.write 0x13C 32 7)).Inv ∧
    (pend (.write 0x13C 32 7)).pending = .write (BitVec.ofNat 12 (0x100 + 4 * (15 : SReg).val)) 32 7 :: [] :=
  ⟨⟨rfl, by decide⟩, rfl, ⟨rfl, by decide⟩, rfl⟩
theorem witness_SkindIsAViewOfTheKindBits :
    (pend (.read 0x140 32)).pending = .read 0x140 32 :: [] ∧
    (pend (.write 0x140 32 0xFFFF8001)).pending = .write 0x140 32 0xFFFF8001 :: [] := ⟨rfl, rfl⟩
theorem witness_StatusReadsAndClearsSeenBits :
    (pend (.write 0x144 32 0x700)).pending = .write 0x144 32 0x700 :: [] ∧
    (pend (.read 0x144 32)).pending = .read 0x144 32 :: [] := ⟨rfl, rfl⟩
theorem witness_StatusReservedBitsReadZero : ∀ k ∈ [4, 7, 11, 31], (4 ≤ k ∧ k ≤ 7) ∨ 11 ≤ k := by decide
theorem witness_ReservedTransactionsAreIgnored :
    (∀ p ∈ ([(0x100, 8), (0x144, 8), (0x0FC, 32), (0x101, 32), (0x13E, 32), (0x14C, 32), (0xFFF, 32), (0x000, 16)] :
        List (HostAddr × Nat)),
      ¬(p.2 = 8 ∧ p.1.toNat ≤ 0xFF) ∧
      ¬(p.2 = 32 ∧ ((∃ i : SReg, p.1.toNat = 0x100 + 4 * i.val) ∨ p.1.toNat = 0x140 ∨ p.1.toNat = 0x144 ∨
        p.1.toNat = 0x148))) ∧
    (pend (.write 0x100 8 1)).pending = .write 0x100 8 1 :: [] ∧ (pend (.read 0x100 8)).pending = .read 0x100 8 :: [] :=
  ⟨by decide, rfl, rfl⟩
theorem witness_HostNeverReachesValueRegisters :
    let s := pend (.read 0x104 32)
    let s' := s.setV 1 ⟨1, 2, 3⟩
    s.getV 1 ≠ s'.getV 1 ∧ AgreeButV s s' ∧ s.pending = .read 0x104 32 :: [] ∧
    (∀ w, HostEvent.read 0x104 32 ≠ .write 0x148 32 w) ∧ HostEvent.read 0x104 32 ≠ .reset ∧
    (∀ o, HostEvent.read 0x104 32 ≠ .powerOn o) ∧ (∃ t, step s = .next t) ∧ (∃ t, step s' = .next t) :=
  ⟨by decide, ⟨fun _ => rfl, rfl, rfl, rfl, rfl, rfl⟩, rfl, nofun, nofun, nofun, ⟨_, rfl⟩, ⟨_, rfl⟩⟩
theorem witness_ResetStateValues : (Instr.lth 0 0 15).hostInt = some 15 ∧ (Instr.fromint 0 0).hostInt = some 0 ∧
    ∃ s t : State, Sys2Proof.core.run 2 s.resetUnit = .next t ∧ (∀ e ∈ s.pending.take 2, ¬e.SetsKind 15) ∧
      (∀ e ∈ s.pending.take 2, ¬e.WritesV 15) ∧ (t.getS 0).kind = true ∧ t.getV 3 ≠ ⟨0, 0, 0⟩ := by
  refine ⟨rfl, rfl, { good with pending := [.write 0x100 32 7, cmdWrite 0x11310000] }, _, rfl, ?_, ?_, by decide, by decide⟩
  all_goals
    intro e he
    simp only [List.take_succ_cons, List.take_zero, List.mem_cons, List.not_mem_nil, or_false] at he
    rcases he with rfl | rfl
  · rintro (⟨w, hw⟩ | ⟨w, hw, -⟩ | ⟨i, hi, -⟩) <;> cases ‹_›
  · rintro (⟨w, hw⟩ | ⟨w, hw, -⟩ | ⟨i, hi, hr⟩)
    · cases hw
    · cases hw
    · cases hi; exact absurd hr (by decide)
  · rintro ⟨i, hi, -⟩; cases hi
  · rintro ⟨i, hi, hr⟩; cases hi; exact absurd hr (by decide)
theorem witness_ResetLeavesNothingOfThePast :
    (∃ s : State, s.pending = .reset :: [] ∧ s.getV 1 ≠ ⟨0, 0, 0⟩) ∧
    (∃ s : State, s.pending = .powerOn none :: [] ∧ s.getV 1 ≠ ⟨0, 0, 0⟩) ∧
    (∃ s : State, s.pending = .powerOn (some 0x04010000) :: [] ∧ s.getV 1 ≠ ⟨0, 0, 0⟩) :=
  ⟨⟨{ good with pending := [.reset] }, rfl, by decide⟩, ⟨{ good with pending := [.powerOn none] }, rfl, by decide⟩,
    ⟨{ good with pending := [.powerOn (some 0x04010000)] }, rfl, by decide⟩⟩
theorem witness_StepKeepsInv : (pend (.write 0x0FF 8 1)).Inv ∧ ∃ t, step (pend (.write 0x0FF 8 1)) = .next t :=
  ⟨⟨rfl, by decide⟩, _, rfl⟩
theorem witness_RunKeepsMulZeroWidth : ∃ t, Sys2Proof.core.run 3 (pend .reset) = .next t := ⟨_, rfl⟩
theorem witness_ErrorsWriteOnlyStatus :
    (∃ t, issue 0x00000000 good = .next t ∧ t.status.last ≠ .ok) ∧ (∃ t, issue 0x02100500 good = .next t ∧ t.status.last ≠ .ok) ∧
    (∃ t, issue 0x01110000 bad = .next t ∧ t.status.last ≠ .ok) :=
  ⟨⟨_, rfl, by decide⟩, ⟨_, rfl, by decide⟩, ⟨_, rfl, by decide⟩⟩
theorem witness_SeenBitsAreSticky :
    (∃ t, issue 0x10312000 good = .next t ∧ t.status.last = .ok) ∧
    ∃ s t : State, step s = .next t ∧ (∀ (w : Word) (rest : List HostEvent), s.pending ≠ .write 0x144 32 w :: rest) ∧
      (∀ rest : List HostEvent, s.pending ≠ .reset :: rest) ∧
      (∀ (o : Option Word) (rest : List HostEvent), s.pending ≠ .powerOn o :: rest) ∧ s.status.rangeSeen = true ∧
      s.status.typeSeen = true ∧ s.status.illegalSeen = true :=
  ⟨⟨_, rfl, rfl⟩, { pend (.write 0x148 32 0x10312000) with status := ⟨.illegal, true, true, true⟩ }, _, rfl,
    nofun, nofun, nofun, rfl, rfl, rfl⟩
theorem witness_OutcomeOfEachCommand : decode 0x02100500 = .ok (.fromb 1 0 5) ∧ decode 0x01110000 = .ok (.fromint 1 1) :=
  ⟨rfl, rfl⟩
theorem witness_IllegalExactlyForUnmatchedWords : ∃ t, issue 0x00000000 good = .next t ∧ t.status.last = .illegal :=
  ⟨_, rfl, rfl⟩
theorem witness_CommandsWriteOnlyTheirDestinations :
    (∃ t, exec (.add 3 1 2) good = .next t) ∧ (∃ t, exec (.toi64 4 1) good = .next t) ∧
    (∃ t, exec (.tob 1 255) good = .next t) ∧ (∃ t, exec (.cmph 15 1 1) good = .next t) :=
  ⟨⟨_, rfl⟩, ⟨_, rfl⟩, ⟨_, rfl⟩, ⟨_, rfl⟩⟩
theorem witness_OvfReachesNothingButRdovf :
    let s' := good.setV 1 ⟨0x8000, 1, 8⟩
    good.getV 1 ≠ s'.getV 1 ∧ AgreeButOvf good s' ∧ (∀ (d : SReg) (a : VReg), Instr.add 3 1 2 ≠ .rdovf d a) ∧
    (∃ t, exec (.add 3 1 2) good = .next t) ∧ (∃ t, exec (.add 3 1 2) s' = .next t) :=
  ⟨by decide, ⟨by decide, by decide, fun _ => rfl, rfl, rfl, rfl, rfl, rfl⟩, nofun, ⟨_, rfl⟩, ⟨_, rfl⟩⟩
theorem witness_LatenciesDependOnWordsOnly :
    let s := pend (cmdWrite 0x10312000)
    let s' := { good with pending := [cmdWrite 0x10312000] }
    s ≠ s' ∧ s.pending = s'.pending ∧ s.cfg = s'.cfg := by decide
theorem witness_FromintResult : rowMet 0x01000000 0xFF00FFFF = true ∧ (bad.getS 1).kind = false ∧ (good.getS 1).kind = true :=
  ⟨by decide, guard_met⟩
theorem witness_FrombResult : rowMet 0x02000000 0xFF0FF000 = true ∧ ∀ len ∈ ([0, 3, 5, 15] : List (Fin 16)), len ≠ 4 := by
  decide
theorem witness_FromrbResult : rowMet 0x03000000 0xFF0FF000 = true ∧ ∀ len ∈ ([0, 3, 5, 15] : List (Fin 16)), len ≠ 4 := by
  decide
theorem witness_TobResult : rowMet 0x04000000 0xFFF0FF00 = true ∧ good.Inv := ⟨by decide, good_inv⟩
theorem witness_TorbResult : rowMet 0x05000000 0xFFF0FF00 = true ∧ good.Inv := ⟨by decide, good_inv⟩
theorem witness_TointResult : rowMet 0x06000000 0xFF00FFFF = true := by decide
theorem witness_Toi64Result : rowMet 0x07000000 0xFF10FFFF = true ∧ (15 : VReg).val % 2 = 1 ∧ (14 : VReg).val % 2 = 0 := by
  decide
theorem witness_ByteRoundTrips : bytes.Inv ∧
    (∃ t u, exec (.fromb 1 253 4) bytes = .next t ∧ exec (.tob 1 253) t = .next u) ∧
    (∃ t u, exec (.fromrb 1 255 4) bytes = .next t ∧ exec (.torb 1 255) t = .next u) ∧
    (∃ t u, exec (.tob 2 0) bytes = .next t ∧ exec (.fromb 1 0 4) t = .next u) ∧
    (∃ t u, exec (.torb 2 254) bytes = .next t ∧ exec (.fromrb 1 254 4) t = .next u) :=
  ⟨bytes_inv, ⟨_, _, rfl, rfl⟩, ⟨_, _, rfl, rfl⟩, ⟨_, _, rfl, rfl⟩, ⟨_, _, rfl, rfl⟩⟩
theorem witness_TobThenFromrbSwapsBytes : good.Inv ∧
    ∃ t u, exec (.tob 1 255) good = .next t ∧ exec (.fromrb 2 255 4) t = .next u := ⟨good_inv, _, _, rfl, rfl⟩
theorem witness_HostIntegerRoundTrip : good.getS 1 = ⟨5, true⟩ := by decide
theorem witness_AddResult : rowMet 0x10000000 0xFF000FFF = true := by decide
theorem witness_AddhResult : rowMet 0x11000000 0xFF000FFF = true ∧ (bad.getS 1).kind = false ∧ (good.getS 1).kind = true :=
  ⟨by decide, guard_met⟩
theorem witness_SubAndSubhResults : rowMet 0x12000000 0xFF000FFF = true ∧ rowMet 0x13000000 0xFF000FFF = true ∧
    (bad.getS 1).kind = false ∧ (good.getS 1).kind = true := ⟨by decide, by decide, guard_met⟩
theorem witness_MulResult : rowMet 0x14000000 0xFF000FC0 = true := by decide
theorem witness_MulhResult : rowMet 0x15000000 0xFF000FC0 = true ∧ (bad.getS 1).kind = false ∧ (good.getS 1).kind = true :=
  ⟨by decide, guard_met⟩
theorem witness_MulAtEverySign :
    (∃ t, exec (.mul 3 1 2 32) good = .next t ∧ 32 ≤ (if (32 : Fin 64).val = 0 then good.cfg.mulZeroWidth else (32 : Fin 64).val)) ∧
    (∃ t, exec (.mul 3 1 0 0) good = .next t ∧ (good.getV 0).u32 = 0) ∧ (good.getS 1).kind = true ∧
    (∃ t, exec (.mulh 3 1 1 32) good = .next t ∧ 32 ≤ (if (32 : Fin 64).val = 0 then good.cfg.mulZeroWidth else (32 : Fin 64).val)) ∧
    (∃ t, exec (.mulh 3 0 1 0) good = .next t ∧ (good.getV 0).u32 = 0) :=
  ⟨⟨_, rfl, by decide⟩, ⟨_, rfl, by decide⟩, by decide, ⟨_, rfl, by decide⟩, _, rfl, by decide⟩
theorem witness_RdovfResult : rowMet 0x16000000 0xFF00FFFF = true := by decide
theorem witness_BitwiseResults : rowMet 0x20000000 0xFF000FFF = true ∧ rowMet 0x21000000 0xFF000FFF = true ∧
    rowMet 0x22000000 0xFF000FFF = true := by decide
theorem witness_MaskhResult : rowMet 0x23000000 0xFF000FFF = true ∧ (bad.getS 1).kind = false ∧ (good.getS 1).kind = true :=
  ⟨by decide, guard_met⟩
theorem witness_RotateRightUndoneByRotateLeft : (⟨0x0C00, 0, 0⟩ : Value).u32 = rotr32 ⟨0x8000, 1, 7⟩ 5 ∧
    (⟨0, 3, 0⟩ : Value).u32 = rotr32 ⟨0x8000, 1, 7⟩ (-33) := by decide
theorem witness_RotateByRegisterResults : rowMet 0x30000000 0xFF000FFF = true ∧ rowMet 0x31000000 0xFF000FFF = true ∧
    (bad.getS 1).kind = false ∧ (good.getS 1).kind = true := ⟨by decide, by decide, guard_met⟩
theorem witness_RotateByImmediateResults : rowMet 0x38000000 0xFF00F000 = true ∧ rowMet 0x39000000 0xFF00F000 = true := by
  decide
theorem witness_ShiftByRegisterResults : rowMet 0x32000000 0xFF000FFF = true ∧ rowMet 0x33000000 0xFF000FFF = true ∧
    (bad.getS 1).kind = false ∧ (good.getS 1).kind = true := ⟨by decide, by decide, guard_met⟩
theorem witness_ShiftByImmediateResults : rowMet 0x3A000000 0xFF00F000 = true ∧ rowMet 0x3B000000 0xFF00F000 = true := by
  decide
theorem witness_CmphResult : rowMet 0x40000000 0xFF000FFF = true ∧ (bad.getS 1).kind = false ∧ (good.getS 1).kind = true :=
  ⟨by decide, guard_met⟩
theorem witness_GthAndLthResults : rowMet 0x41000000 0xFF000FFF = true ∧ rowMet 0x42000000 0xFF000FFF = true ∧
    (bad.getS 1).kind = false ∧ (good.getS 1).kind = true := ⟨by decide, by decide, guard_met⟩
theorem witness_ComparatorTotality : (good.getS 1).kind = true ∧ (∃ g, exec (.gth 3 1 1) good = .next g) ∧
    (∃ l, exec (.lth 3 1 1) good = .next l) ∧ (∃ c, exec (.cmph 3 1 1) good = .next c) ∧
    (⟨1, 2, 3⟩ : Value).hi = (⟨1, 2, 4⟩ : Value).hi ∧ (⟨1, 2, 3⟩ : Value).lo = (⟨1, 2, 4⟩ : Value).lo :=
  ⟨by decide, ⟨_, rfl⟩, ⟨_, rfl⟩, ⟨_, rfl⟩, rfl, rfl⟩

end Sys2Proof.Tests
end

section
/-! PROOF. What every step keeps (O21, O22, O31). How a command can end is said once, in `exec_ended`; from it follow the
frame of every command, that every step answers a next state, and what serving any input keeps (`Upkeep`). -/

namespace Sys2Proof.Machine

/-! ### How a command ends -/

/-- `t` is `s` after the writes to the named V registers, S registers and bytes of BUF: one V register, a pair, one S
register, or four bytes, the shapes of a destination that the formats of R62 have. -/
inductive Written (s : State) : List VReg → List SReg → List BufAddr → State → Prop
  | value (d : VReg) (v : Value) : Written s [d] [] [] (s.setV d v)
  | pair (d e : VReg) (v w : Value) : Written s [d, e] [] [] ((s.setV d v).setV e w)
  | int (d : SReg) (x : Word) : Written s [] [d] [] (s.setInt d x)
  | bytes (addr : BufAddr) (q : Quad) : Written s [] [] (quadAddrs addr) (s.writeQuad addr q)

/-- How the command `i` ends in state `s`: it completes after the write to its own destinations (R37, R205), or it fails and
writes STATUS alone (R204). -/
inductive Ended (i : Instr) (s : State) : Result → Prop
  | completed {t : State} (h : Written s i.destV i.destS i.stored t) : Ended i s (done t)
  | failed (e : ErrorKind) : Ended i s (fail e s)

/-- A guarded command whose effect writes its own destinations, whatever the host integer, ends in one of the two ways (R11,
R202). -/
theorem Ended.of_withInt {i : Instr} {s : State} {b : SReg} {f : Word → State}
    (h : ∀ n, Written s i.destV i.destS i.stored (f n)) : Ended i s (withInt s b f) := by
  unfold withInt
  split
  · exact .failed .typeError
  · exact .completed (h _)

/-- A construction from bytes completes, or fails with RangeError (R102, R103, R201). -/
theorem Ended.of_fromBytes {i : Instr} {s : State} (order : Quad → Word) {d : VReg} {addr : BufAddr} {len : Fin 16}
    (h : ∀ v, Written s i.destV i.destS i.stored (s.setV d v)) : Ended i s (fromBytes order d addr len s) := by
  unfold fromBytes
  split
  · exact .completed (h _)
  · exact .failed .rangeError

/-- TOI64 writes the pair it names, or is Illegal when its destination is odd (R68, R107). -/
theorem ended_toi64 (d a : VReg) (s : State) : Ended (.toi64 d a) s (execToi64 d a s) := by
  unfold execToi64
  split
  · refine .completed ?_
    rw [Instr.destV, if_pos ‹_›]
    exact .pair d _ _ _
  · exact .failed .illegal

/-- Every command ends in one of the two ways, having written its own destinations or nothing (R37, R71). -/
theorem exec_ended (i : Instr) (s : State) : Ended i s (exec i s) := by
  cases i with
  | fromint d a => exact .of_withInt fun _ => .value d _
  | fromb d addr len => exact .of_fromBytes Quad.forward fun _ => .value d _
  | fromrb d addr len => exact .of_fromBytes (fun q => q.reverse.forward) fun _ => .value d _
  | tob a addr => exact .completed (.bytes addr _)
  | torb a addr => exact .completed (.bytes addr _)
  | toint d a => exact .completed (.int d _)
  | toi64 d a => exact ended_toi64 d a s
  | add d a b => exact .completed (.value d _)
  | addh d a b => exact .of_withInt fun _ => .value d _
  | sub d a b => exact .completed (.value d _)
  | subh d a b => exact .of_withInt fun _ => .value d _
  | mul d a b w => exact .completed (.value d _)
  | mulh d a b w => exact .of_withInt fun _ => .value d _
  | rdovf d a => exact .completed (.int d _)
  | and d a b => exact .completed (.value d _)
  | or d a b => exact .completed (.value d _)
  | xor d a b => exact .completed (.value d _)
  | maskh d a b => exact .of_withInt fun _ => .value d _
  | rotl d a b => exact .of_withInt fun _ => .value d _
  | rotr d a b => exact .of_withInt fun _ => .value d _
  | shl d a b => exact .of_withInt fun _ => .value d _
  | shr d a b => exact .of_withInt fun _ => .value d _
  | rotli d a c => exact .completed (.value d _)
  | rotri d a c => exact .completed (.value d _)
  | shli d a c => exact .completed (.value d _)
  | shri d a c => exact .completed (.value d _)
  | cmph d a b => exact .of_withInt fun _ => .int d _
  | gth d a b => exact .of_withInt fun _ => .int d _
  | lth d a b => exact .of_withInt fun _ => .int d _

/-- Everything a command can do. -/
theorem exec_cases {i : Instr} {s t : State} (h : exec i s = .next t) :
    (∃ u, Written s i.destV i.destS i.stored u ∧ t = u.complete) ∨ (∃ e, t = s.raise e) := by
  generalize hr : exec i s = r at h
  have hend : Ended i s r := hr ▸ exec_ended i s
  cases hend with
  | completed hw => exact .inl ⟨_, hw, done_eq_next h⟩
  | failed e => exact .inr ⟨e, fail_eq_next h⟩

/-- Every command answers a next state (R71, R208). -/
theorem exec_total (i : Instr) (s : State) : ∃ t, exec i s = .next t := by
  have hend := exec_ended i s
  generalize exec i s = r at hend
  cases hend with
  | completed hw => exact ⟨_, done_eq _⟩
  | failed e => exact ⟨_, fail_eq e s⟩

/-! ### What a command keeps -/

theorem Written.frame {s t : State} {vs : List VReg} {ss : List SReg} {stored : List BufAddr}
    (h : Written s vs ss stored t) : Frame vs ss stored s t.complete := by
  cases h with
  | value d v => exact frame_setV s d v
  | pair d e v w => exact frame_setV_setV s d e v w
  | int d x => exact frame_setInt s d x
  | bytes addr q => exact frame_writeQuad s addr q

theorem Written.wf {s t : State} {vs : List VReg} {ss : List SReg} {stored : List BufAddr}
    (h : Written s vs ss stored t) (hs : Memory.wf s.buf = true) : Memory.wf t.buf = true := by
  cases h with
  | value d v => exact hs
  | pair d e v w => exact hs
  | int d x => exact hs
  | bytes addr q => exact State.wf_writeQuad hs addr q

/-- A command changes nothing but its destinations and STATUS (R37). -/
theorem exec_frame {i : Instr} {s t : State} (h : exec i s = .next t) : Frame i.destV i.destS i.stored s t := by
  obtain ⟨u, hw, rfl⟩ | ⟨e, rfl⟩ := exec_cases h
  · exact hw.frame
  · exact frame_raise _ _ _ s e

/-- A command keeps BUF's canonical form. -/
theorem exec_wf {i : Instr} {s t : State} (h : exec i s = .next t) (hs : Memory.wf s.buf = true) :
    Memory.wf t.buf = true := by
  obtain ⟨u, hw, rfl⟩ | ⟨e, rfl⟩ := exec_cases h
  · exact hw.wf hs
  · exact hs

/-! ### What serving an input keeps -/

/-- What no input changes: BUF's canonical form, the configuration (R231), and the transactions still to be served (R51). -/
structure Upkeep (s t : State) : Prop where
  wf : Memory.wf s.buf = true → Memory.wf t.buf = true
  cfg : t.cfg = s.cfg
  pending : t.pending = s.pending

/-- An update that leaves BUF, the configuration and the pending transactions alone. -/
theorem Upkeep.of_eq {s t : State} (hb : t.buf = s.buf) (hc : t.cfg = s.cfg) (hp : t.pending = s.pending) : Upkeep s t :=
  ⟨fun hs => hb ▸ hs, hc, hp⟩

theorem issue_upkeep {w : Word} {s t : State} (h : issue w s = .next t) : Upkeep s t := by
  obtain ⟨i, -, hi⟩ | ⟨e, -, rfl⟩ := issue_cases h
  · exact ⟨exec_wf hi, (exec_frame hi).cfg, (exec_frame hi).pending⟩
  · exact .of_eq rfl rfl rfl

theorem hostWrite_upkeep {p : Port} {data : Word} {s t : State} (h : hostWrite p data s = .next t) : Upkeep s t := by
  obtain ⟨a, -, rfl⟩ | ⟨i, -, rfl⟩ | ⟨-, rfl⟩ | ⟨-, rfl⟩ | ⟨-, hc⟩ | ⟨-, rfl⟩ := hostWrite_cases h
  · exact ⟨fun hs => State.wf_setByte hs a _, State.setByte_cfg _ _ _, State.setByte_pending _ _ _⟩
  · exact .of_eq (State.setInt_buf s i data) (State.setInt_cfg s i data) (State.setInt_pending s i data)
  · exact .of_eq (State.setKinds_buf s data) (State.setKinds_cfg s data) (State.setKinds_pending s data)
  · exact .of_eq rfl rfl rfl
  · exact issue_upkeep hc
  · exact .of_eq rfl rfl rfl

theorem serve_upkeep {e : HostEvent} {s t : State} (h : serve e s = .next t) : Upkeep s t := by
  obtain ⟨addr, width, -, rfl⟩ | ⟨addr, width, data, -, hw⟩ | ⟨-, rfl⟩ := serve_cases h
  · exact .of_eq rfl rfl rfl
  · exact hostWrite_upkeep hw
  · exact ⟨fun _ => rfl, rfl, rfl⟩

/-! ### Every input is served -/

theorem issue_total (w : Word) (s : State) : ∃ t, issue w s = .next t := by
  cases hd : decode w with
  | ok i => rw [issue_of_ok hd]; exact exec_total i s
  | error e => exact ⟨_, issue_of_error hd s⟩

theorem hostWrite_total (p : Port) (data : Word) (s : State) : ∃ t, hostWrite p data s = .next t := by
  cases p with
  | cmd => exact issue_total data s
  | buf _ | sdata _ | skind | status | reserved => exact ⟨_, rfl⟩

theorem serve_total (e : HostEvent) (s : State) : ∃ t, serve e s = .next t := by
  cases e with
  | write addr width data => exact hostWrite_total _ data s
  | powerOn during => cases during <;> exact ⟨_, rfl⟩
  | read _ _ | reset => exact ⟨_, rfl⟩

/-! ### The step -/

/-- Every step answers a next state: no word and no transaction stops the machine (R71, R209, R236). -/
theorem step_total (s : State) : ∃ t, step s = .next t := by
  cases hp : s.pending with
  | nil => exact ⟨s, step_nil hp⟩
  | cons e rest => rw [step_cons hp]; exact serve_total e _

theorem step_wf {s t : State} (h : step s = .next t) (hs : Memory.wf s.buf = true) : Memory.wf t.buf = true := by
  obtain ⟨-, rfl⟩ | ⟨e, rest, -, he⟩ := step_cases h
  · exact hs
  · exact (serve_upkeep he).wf hs

/-- No step changes the configuration (R231). -/
theorem step_cfg {s t : State} (h : step s = .next t) : t.cfg = s.cfg := by
  obtain ⟨-, rfl⟩ | ⟨e, rest, -, he⟩ := step_cases h
  · rfl
  · exact (serve_upkeep he).cfg

/-- A step takes the oldest transaction and leaves the others (R51). -/
theorem step_pending {s t : State} (h : step s = .next t) : t.pending = s.pending.tail := by
  obtain ⟨hp, rfl⟩ | ⟨e, rest, hp, he⟩ := step_cases h
  · rw [hp, List.tail_nil]
  · rw [hp, List.tail_cons]
    exact (serve_upkeep he).pending

/-! ### The invariant -/

/-- Settles O21: at reset BUF lists nothing and MUL_ZERO_WIDTH is 31 (R7, R38). -/
theorem resetStateMeetsInv : Obligations.ResetStateMeetsInv :=
  show State.reset.Inv from ⟨rfl, by decide⟩

/-- Settles O22: every update of BUF goes through `Memory.write`, and nothing writes the configuration. -/
theorem stepKeepsInv : Obligations.StepKeepsInv := by
  intro s t ⟨hbuf, hcfg⟩ h
  exact ⟨step_wf h hbuf, (step_cfg h).symm ▸ hcfg⟩

/-! ### Latencies -/

/-- The latency of the next command is fixed by the transactions and the configuration (R240). -/
theorem headLatency_congr {s s' : State} (hp : s.pending = s'.pending) (hc : s.cfg = s'.cfg) :
    headLatency s = headLatency s' := by
  unfold headLatency
  rw [hp, hc]

theorem runLatencies_succ {s t : State} (h : step s = .next t) (k : Nat) :
    runLatencies (k + 1) s = headLatency s ++ runLatencies k t := by
  rw [runLatencies, h]

/-- Runs that agree on the transactions and the configuration take the same time: a step keeps the agreement, since it takes
one transaction off the list in either run and changes the configuration in neither (R240). -/
theorem runLatencies_congr (k : Nat) {s s' : State} (hp : s.pending = s'.pending) (hc : s.cfg = s'.cfg) :
    runLatencies k s = runLatencies k s' := by
  induction k generalizing s s' with
  | zero => rfl
  | succ k ih =>
    obtain ⟨t, ht⟩ := step_total s
    obtain ⟨t', ht'⟩ := step_total s'
    have hpending : t.pending = t'.pending := by rw [step_pending ht, step_pending ht', hp]
    have hcfg : t.cfg = t'.cfg := by rw [step_cfg ht, step_cfg ht', hc]
    rw [runLatencies_succ ht, runLatencies_succ ht', headLatency_congr hp hc, ih hpending hcfg]

/-- Settles O31: LAT is one more than a natural number, and a run's latencies follow from `runLatencies_congr`. -/
theorem latenciesDependOnWordsOnly : Obligations.LatenciesDependOnWordsOnly :=
  ⟨fun _ _ => Nat.succ_pos _, fun k _ _ hp hc => runLatencies_congr k hp hc⟩

end Sys2Proof.Machine
end

section
/-! PROOF. The host's view of the state (O9, O10, O13 to O16) and the frame of a command (O29): the rows of the host map, the
two views SKIND and STATUS, and what a host write changes. -/

namespace Sys2Proof.Machine

/-! ### The rows of the host map -/

/-- SDATA[i] is reached by a 32-bit transaction at its word address and by nothing else (R49). -/
theorem hostPort_eq_sdata_iff {addr : HostAddr} {width : Nat} {i : SReg} :
    hostPort addr width = .sdata i ↔ addr = BitVec.ofNat 12 (0x100 + 4 * i.val) ∧ width = 32 := by
  constructor
  · intro h
    unfold hostPort at h
    split_ifs at h
    obtain ⟨hlow, hhigh, halign⟩ := ‹256 ≤ addr.toNat ∧ addr.toNat < 320 ∧ addr.toNat % 4 = 0›
    obtain rfl := Port.sdata.inj h
    refine ⟨BitVec.eq_of_toNat_eq ?_, ‹width = 32›⟩
    simp only [BitVec.toNat_ofNat]
    omega
  · rintro ⟨rfl, rfl⟩
    exact hostPort_sdata i

/-- SKIND is reached by a 32-bit transaction at 0x140 and by nothing else (R49). -/
theorem hostPort_eq_skind_iff {addr : HostAddr} {width : Nat} : hostPort addr width = .skind ↔ addr = 0x140 ∧ width = 32 := by
  have key : addr = 0x140 ↔ addr.toNat = 0x140 := ⟨fun h => h ▸ rfl, fun h => BitVec.eq_of_toNat_eq h⟩
  rw [key]
  unfold hostPort
  split_ifs <;> simp <;> omega

/-- The next transaction is a host read of a row of the map: the value joins the host's record and nothing else changes
(R47, R236). -/
theorem step_read {s : State} {addr : HostAddr} {width : Nat} {p : Port} {rest : List HostEvent}
    (hp : s.pending = .read addr width :: rest) (hport : hostPort addr width = p) :
    step s = .next { s with pending := rest, reads := s.reads ++ [hostRead { s with pending := rest } p] } := by
  rw [step_cons hp, serve, hport]
  rfl

/-- The next transaction is a host write of a row of the map: the row's effect is all that happens (R49). -/
theorem step_write {s : State} {addr : HostAddr} {width : Nat} {data : Word} {p : Port} {rest : List HostEvent}
    (hp : s.pending = .write addr width data :: rest) (hport : hostPort addr width = p) :
    step s = hostWrite p data { s with pending := rest } := by
  rw [step_cons hp, serve, hport]

/-! ### SKIND -/

/-- Bit `i` of the kind bits is the kind of the `i`-th register, and 0 beyond the last. -/
theorem testBit_kindsNat (l : List Scalar) (i : Nat) : (kindsNat l).testBit i = l[i]?.any (·.kind) := by
  induction l generalizing i with
  | nil => simp [kindsNat]
  | cons x xs ih =>
    cases i with
    | zero => cases hk : x.kind <;> simp [kindsNat, hk, Nat.testBit_zero]
    | succ i =>
      have half : kindsNat (x :: xs) / 2 = kindsNat xs := by
        cases hk : x.kind <;> simp only [kindsNat, hk, Bool.toNat_true, Bool.toNat_false] <;> omega
      rw [Nat.testBit_succ, half, ih, List.getElem?_cons_succ]

/-- Bit `i` of SKIND is the kind of S[i] (R32). -/
theorem getLsbD_skind (s : State) (i : SReg) : s.skind.getLsbD i.val = (s.getS i).kind := by
  have hi : i.val < 32 := by omega
  rw [State.skind, BitVec.getLsbD_ofNat, testBit_kindsNat]
  simp [hi, State.getS]

/-- Bits 31:16 of SKIND are 0 (R32). -/
theorem skind_high_eq_zero (s : State) : s.skind.extractLsb' 16 16 = 0 := by
  apply BitVec.eq_of_getLsbD_eq
  intro i hi
  simp [State.skind, BitVec.getLsbD_ofNat, testBit_kindsNat]

/-! ### STATUS -/

/-- STATUS as a number: the SEEN bits at positions 10, 9 and 8, LAST in bits 3:0 (R30, R31). -/
theorem Status.word_toNat (st : Status) : st.word.toNat =
    1024 * st.illegalSeen.toNat + 512 * st.typeSeen.toNat + 256 * st.rangeSeen.toNat + st.last.code.toNat := by
  obtain ⟨last, rangeSeen, typeSeen, illegalSeen⟩ := st
  cases last <;> revert rangeSeen typeSeen illegalSeen <;> decide

/-- The codes of LAST are 0 to 3 (R200). -/
theorem Last.code_le_three (l : Last) : l.code.toNat ≤ 3 := by
  cases l <;> decide

/-- Bits 3:0 of STATUS are the code of LAST (R30). -/
theorem Status.word_last (st : Status) : st.word.extractLsb' 0 4 = st.last.code := by
  apply BitVec.eq_of_getLsbD_eq
  intro i hi
  rw [BitVec.getLsbD_extractLsb', Status.word, BitVec.getLsbD_append]
  simp [hi]

/-- Bits 7:4 and 31:11 of STATUS are 0 (R30). -/
theorem Status.word_reserved (st : Status) {k : Nat} (hk : (4 ≤ k ∧ k ≤ 7) ∨ 11 ≤ k) : st.word.getLsbD k = false := by
  simp only [Status.word, BitVec.getLsbD_append]
  grind

/-! ### What a host write changes -/

/-- A frame does not look at STATUS, so an update has the frame it has at the end of a command. -/
theorem Frame.of_complete {vs : List VReg} {ss : List SReg} {stored : List BufAddr} {s t : State}
    (h : Frame vs ss stored s t.complete) : Frame vs ss stored s t :=
  ⟨h.vregs, h.sregs, h.bytes, h.cfg, h.pending, h.reads⟩

theorem frame_setByte (s : State) (a : BufAddr) (b : Byte) : Frame [] [] [a] s (s.setByte a b) where
  vregs _ _ := rfl
  sregs _ _ := rfl
  bytes _ hp := State.byte_setByte_of_ne s b (by simpa using hp)
  cfg := rfl
  pending := rfl
  reads := rfl

theorem frame_setKinds (s : State) (w : Word) : Frame [] (List.finRange 16) [] s (s.setKinds w) := by
  constructor
  case sregs => exact fun r hr => absurd (List.mem_finRange r) hr
  all_goals intros; rfl

/-- Settles O13: the row of the map the address names gives the update, and its frame is that of `setByte` or `setInt`. -/
theorem hostWritesStoreTheValue : Obligations.HostWritesStoreTheValue := by
  intro s rest w ⟨hbuf, _⟩
  constructor
  · intro a hp
    refine ⟨_, step_write hp (hostPort_buf a), ?_, rfl, frame_setByte _ a _⟩
    have hlow : w.extractLsb' 0 8 = w.setWidth 8 := (BitVec.setWidth_eq_extractLsb' (by omega)).symm
    exact (State.byte_setByte_same (s := { s with pending := rest }) hbuf a _).trans hlow
  · intro i hp
    exact ⟨_, step_write hp (hostPort_sdata i), State.getS_setInt_same _ i w, rfl, (frame_setInt _ i w).of_complete⟩

/-- Settles O14: a read gives `State.skind`, a write is `State.setKinds`, and at reset no kind is set. -/
theorem skindIsAViewOfTheKindBits : Obligations.SkindIsAViewOfTheKindBits := by
  refine ⟨fun s rest hp => ?_, fun s rest w hp => ?_, fun rest => ?_⟩
  · exact ⟨_, step_read hp hostPort_skind, getLsbD_skind _, skind_high_eq_zero _⟩
  · exact ⟨_, step_write hp hostPort_skind, fun i => State.getS_setKinds _ w i, rfl, frame_setKinds _ w⟩
  · exact step_read rfl hostPort_skind

/-- Settles O15: a write is `Status.clearSeen`, and a read gives `Status.word`. -/
theorem statusReadsAndClearsSeenBits : Obligations.StatusReadsAndClearsSeenBits := by
  constructor
  · intro s rest w hp
    have hclear : s.status.clearSeen w = ⟨s.status.last, if w.getLsbD 8 then false else s.status.rangeSeen,
        if w.getLsbD 9 then false else s.status.typeSeen, if w.getLsbD 10 then false else s.status.illegalSeen⟩ := by
      simp [Status.clearSeen, Bool.and_comm, Bool.if_false_left]
    rw [step_write hp hostPort_status, hostWrite, ← hclear]
  · intro s rest hp
    refine ⟨_, step_read hp hostPort_status, (Status.word_toNat s.status).trans ?_⟩
    cases s.status.last <;> rfl

/-- Settles O16: bits 3:0 are the code of LAST, and the reserved bits are the zeros of `Status.word`. -/
theorem statusReservedBitsReadZero : Obligations.StatusReservedBitsReadZero := by
  intro st
  exact ⟨st.word_last ▸ st.last.code_le_three, fun _ hk => st.word_reserved hk⟩

/-! ### Commands through CMD -/

/-- Settles O10: 0x148 is CMD, whose write issues the word and whose read is 0. -/
theorem cmdIssuesAndReadsZero : Obligations.CmdIssuesAndReadsZero :=
  ⟨fun _ _ _ hp => step_write hp hostPort_cmd, fun _ _ hp => step_read hp hostPort_cmd⟩

/-- Settles O9: the word is issued, and issuing a word that decodes runs its command. -/
theorem stepRunsTheDecodedCommand : Obligations.StepRunsTheDecodedCommand := by
  intro s w rest i hp hd
  rw [step_write hp hostPort_cmd]
  exact issue_of_ok hd _

/-- Settles O29: a command changes nothing but its destinations and STATUS, as `exec_frame` says. -/
theorem commandsWriteOnlyTheirDestinations : Obligations.CommandsWriteOnlyTheirDestinations :=
  fun _ _ _ h => exec_frame h

end Sys2Proof.Machine
end

section
/-! PROOF. Who reaches a register (O18, O19): no transaction but a command or a reset touches a value register, and in a run
from a reset a register that no transaction has written keeps its reset value. -/

namespace Sys2Proof.Machine

/-! ### Value registers and the host -/

/-- A host write that is not a CMD write changes no value register (R24). -/
theorem hostWrite_getV {p : Port} {data : Word} {s t : State} (hp : p ≠ .cmd) (h : hostWrite p data s = .next t) (r : VReg) :
    t.getV r = s.getV r := by
  obtain ⟨a, -, rfl⟩ | ⟨i, -, rfl⟩ | ⟨-, rfl⟩ | ⟨-, rfl⟩ | ⟨hc, -⟩ | ⟨-, rfl⟩ := hostWrite_cases h
  · exact State.getV_setByte s a _ r
  · exact State.getV_setInt s i data r
  · exact State.getV_setKinds s data r
  · rfl
  · exact absurd hc hp
  · rfl

/-- A write that is not a CMD write matches another row of the map, or none (R49, R50). -/
theorem hostPort_ne_cmd {addr : HostAddr} {width : Nat} {data : Word}
    (h : ∀ w, HostEvent.write addr width data ≠ .write 0x148 32 w) : hostPort addr width ≠ .cmd := by
  intro hc
  obtain ⟨rfl, rfl⟩ := hostPort_eq_cmd_iff.mp hc
  exact h data rfl

/-- What a host read returns is no value register's doing (R24). -/
theorem hostRead_agreeButV {s s' : State} (h : AgreeButV s s') (p : Port) : hostRead s p = hostRead s' p := by
  cases p with
  | buf a => simp only [hostRead, State.byte, h.buf]
  | sdata i => simp only [hostRead, h.sregs]
  | skind => simp only [hostRead, State.skind, State.sreg_ext h.sregs]
  | status => simp only [hostRead, h.status]
  | cmd | reserved => rfl

/-- A host write that is not a CMD write does the same to two states that differ only in value registers (R24). -/
theorem hostWrite_agreeButV {p : Port} {data : Word} {s s' t t' : State} (hp : p ≠ .cmd) (h : AgreeButV s s')
    (ht : hostWrite p data s = .next t) (ht' : hostWrite p data s' = .next t') : AgreeButV t t' := by
  cases p with
  | buf a =>
    cases ht; cases ht'
    exact { h with buf := by simp only [State.setByte_buf, h.buf] }
  | sdata i =>
    cases ht; cases ht'
    exact { h with sregs := fun r => by simp only [State.getS_setInt, h.sregs] }
  | skind =>
    cases ht; cases ht'
    constructor <;> simp [h.sregs, h.buf, h.status, h.cfg, h.pending, h.reads]
  | status =>
    cases ht; cases ht'
    exact { h with status := by simp only [h.status] }
  | cmd => exact absurd rfl hp
  | reserved =>
    cases ht; cases ht'
    exact h

/-- Serving any input but a CMD write does the same to two states that differ only in value registers (R24). -/
theorem serve_agreeButV {e : HostEvent} {s s' t t' : State} (he : ∀ w, e ≠ .write 0x148 32 w) (h : AgreeButV s s')
    (ht : serve e s = .next t) (ht' : serve e s' = .next t') : AgreeButV t t' := by
  cases e with
  | read addr width =>
    cases ht; cases ht'
    exact { h with reads := by simp only [State.returnRead_reads, h.reads, hostRead_agreeButV h] }
  | write addr width data => exact hostWrite_agreeButV (hostPort_ne_cmd he) h ht ht'
  | reset =>
    cases ht; cases ht'
    exact { h with sregs := fun _ => rfl, buf := rfl, status := rfl }
  | powerOn during =>
    cases during <;> cases ht <;> cases ht' <;> exact { h with sregs := fun _ => rfl, buf := rfl, status := rfl }

/-- Settles O18: only a CMD write reaches `exec`, and only `exec` and a reset reach a value register. -/
theorem hostNeverReachesValueRegisters : Obligations.HostNeverReachesValueRegisters := by
  constructor
  · intro s t e rest hp h hcmd hreset hpower r
    rw [step_cons hp] at h
    obtain ⟨addr, width, -, rfl⟩ | ⟨addr, width, data, rfl, hw⟩ | ⟨rfl | ⟨o, rfl⟩, -⟩ := serve_cases h
    · rfl
    · exact hostWrite_getV (hostPort_ne_cmd hcmd) hw r
    · exact absurd rfl hreset
    · exact absurd rfl (hpower o)
  · intro s s' t t' e rest h hp hcmd ht ht'
    rw [step_cons hp] at ht
    rw [step_cons (h.pending ▸ hp)] at ht'
    have hrest : AgreeButV { s with pending := rest } { s' with pending := rest } := { h with pending := rfl }
    exact serve_agreeButV hcmd hrest ht ht'

/-! ### Runs from a reset -/

/-- A command that reads the host integer S[r] is a guarded one (R200, R202). -/
theorem exec_of_hostInt {i : Instr} {r : SReg} (h : i.hostInt = some r) (s : State) :
    ∃ effect, exec i s = withInt s r effect := by
  cases i <;> cases h <;> exact ⟨_, rfl⟩

/-- A command that reads a host integer of kind 0 raises TypeError (R26, R202). -/
theorem raises_typeError {i : Instr} {r : SReg} {s : State} (h : i.hostInt = some r) (hk : (s.getS r).kind = false) :
    Raises .typeError i s := by
  obtain ⟨effect, he⟩ := exec_of_hostInt h s
  exact raises_of_fail (he.trans (withInt_of_no_kind hk effect))

/-- A CMD write of a word that decodes issues its command (R33). -/
theorem command_of_cmd {addr : HostAddr} {width : Nat} {data : Word} {i : Instr} (hp : hostPort addr width = .cmd)
    (hd : decode data = .ok i) : (HostEvent.write addr width data).command = some i := by
  obtain ⟨rfl, rfl⟩ := hostPort_eq_cmd_iff.mp hp
  simp [HostEvent.command, cmdAddr, hd, Except.toOption]

/-- Issuing a word changes nothing but STATUS and the destinations of the command it decodes to, if it decodes (R37, R203). -/
theorem issue_frame {w : Word} {s t : State} (h : issue w s = .next t) :
    (∃ i, decode w = .ok i ∧ Frame i.destV i.destS i.stored s t) ∨ Frame [] [] [] s t := by
  obtain ⟨i, hd, hi⟩ | ⟨e, -, rfl⟩ := issue_cases h
  · exact .inl ⟨i, hd, exec_frame hi⟩
  · exact .inr (frame_raise _ _ _ s .illegal)

/-- A transaction that cannot give S[r] the kind 1 leaves a kind 0 as it is (R26, R27). -/
theorem serve_kind_eq_false {e : HostEvent} {r : SReg} {s t : State} (he : ¬e.SetsKind r) (hs : (s.getS r).kind = false)
    (h : serve e s = .next t) : (t.getS r).kind = false := by
  obtain ⟨addr, width, -, rfl⟩ | ⟨addr, width, data, rfl, hw⟩ | ⟨-, rfl⟩ := serve_cases h
  · exact hs
  · obtain ⟨a, -, rfl⟩ | ⟨i, hp, rfl⟩ | ⟨hp, rfl⟩ | ⟨-, rfl⟩ | ⟨hp, hi⟩ | ⟨-, rfl⟩ := hostWrite_cases hw
    · exact hs
    · have hne : r ≠ i := by
        rintro rfl
        obtain ⟨rfl, rfl⟩ := hostPort_eq_sdata_iff.mp hp
        exact he (.inl ⟨data, rfl⟩)
      rwa [State.getS_setInt_of_ne s data hne]
    · obtain ⟨rfl, rfl⟩ := hostPort_eq_skind_iff.mp hp
      rw [State.getS_setKinds]
      exact Bool.eq_false_iff.mpr fun hbit => he (.inr (.inl ⟨data, rfl, hbit⟩))
    · exact hs
    · obtain ⟨i, hd, hf⟩ | hf := issue_frame hi
      · rwa [hf.sregs r fun hr => he (.inr (.inr ⟨i, command_of_cmd hp hd, hr⟩))]
      · rwa [hf.sregs r List.not_mem_nil]
    · exact hs
  · rw [State.getS_resetUnit]

/-- A transaction that names no V[r] as a destination leaves a V[r] of 0 with `ovf` 0 as it is (R24, R37, R38). -/
theorem serve_getV_eq_zero {e : HostEvent} {r : VReg} {s t : State} (he : ¬e.WritesV r) (hs : s.getV r = ⟨0, 0, 0⟩)
    (h : serve e s = .next t) : t.getV r = ⟨0, 0, 0⟩ := by
  obtain ⟨addr, width, -, rfl⟩ | ⟨addr, width, data, rfl, hw⟩ | ⟨-, rfl⟩ := serve_cases h
  · exact hs
  · by_cases hp : hostPort addr width = .cmd
    · rw [hp] at hw
      obtain ⟨i, hd, hf⟩ | hf := issue_frame hw
      · rwa [hf.vregs r fun hr => he ⟨i, command_of_cmd hp hd, hr⟩]
      · rwa [hf.vregs r List.not_mem_nil]
    · rwa [hostWrite_getV hp hw r]
  · exact State.getV_resetUnit s r

/-- A property that serving every transaction of a run keeps, and that does not look at the transactions still to be served,
holds where the run ends if it holds where it begins. -/
theorem run_keeps {P : State → Prop} {ok : HostEvent → Prop}
    (hpending : ∀ (s : State) (l : List HostEvent), P s → P { s with pending := l })
    (hserve : ∀ (e : HostEvent) (s t : State), ok e → P s → serve e s = .next t → P t) :
    ∀ (k : Nat) {s t : State}, (∀ e ∈ s.pending.take k, ok e) → P s → Sys2Proof.core.run k s = .next t → P t
  | 0, s, t, _, hs, h => by cases h; exact hs
  | k + 1, s, t, hok, hs, h => by
    obtain ⟨u, hu⟩ := step_total s
    rw [core_run_succ hu] at h
    have hrest := step_pending hu
    obtain ⟨hp, rfl⟩ | ⟨e, rest, hp, he⟩ := step_cases hu
    · exact run_keeps hpending hserve k (by simp [hp]) hs h
    · rw [hp, List.take_succ_cons] at hok
      rw [hp, List.tail_cons] at hrest
      have hu' : P u := hserve e _ u (hok e List.mem_cons_self) (hpending s rest hs) he
      exact run_keeps hpending hserve k (hrest ▸ fun e' he' => hok e' (List.mem_cons_of_mem e he')) hu' h

/-- Settles O19: the reset values are `State.reset`'s fields; a kind 0, and a V of 0, last through every transaction that does
not write the register. -/
theorem resetStateValues : Obligations.ResetStateValues := by
  refine ⟨State.reset_getV, State.reset_getS, State.reset_byte, rfl, ?_, ?_, ?_⟩
  · intro i r h
    exact raises_typeError h (by rw [State.reset_getS])
  · intro k s t r h hok
    have hk : (t.getS r).kind = false :=
      run_keeps (P := fun s => (s.getS r).kind = false) (ok := fun e => ¬e.SetsKind r) (fun _ _ hs => hs)
        (fun _ _ _ => serve_kind_eq_false) k (s := s.resetUnit) hok (by rw [State.getS_resetUnit]) h
    exact ⟨hk, fun i hi => raises_typeError hi hk⟩
  · intro k s t r h hok
    exact run_keeps (P := fun s => s.getV r = ⟨0, 0, 0⟩) (ok := fun e => ¬e.WritesV r) (fun _ _ hs => hs)
      (fun _ _ _ => serve_getV_eq_zero) k (s := s.resetUnit) hok (State.getV_resetUnit s r) h

end Sys2Proof.Machine
end

section
/-! PROOF. `ovf` stays in `ovf` (O30): the datapaths see the limbs alone, so each shape of command does the same to two states
that agree but for `ovf`. -/

namespace Sys2Proof.Machine

/-! ### Where `ovf` can go -/

/-- What the function makes of a value does not depend on its `ovf` (R22, R23). -/
def IgnoresOvf {α : Type} (f : Value → α) : Prop := ∀ (v : Value) (o : Word), f { v with ovf := o } = f v

theorem ignoresOvf_u32 : IgnoresOvf Value.u32 := fun _ _ => rfl
theorem ignoresOvf_quad : IgnoresOvf Value.quad := fun _ _ => rfl
theorem ignoresOvf_signLimb : IgnoresOvf signLimb := fun _ _ => rfl
theorem ignoresOvf_add32_left (y : Value) : IgnoresOvf (add32 · y) := fun _ _ => rfl
theorem ignoresOvf_add32_right (x : Value) : IgnoresOvf (add32 x ·) := fun _ _ => rfl
theorem ignoresOvf_sub32_left (y : Value) : IgnoresOvf (sub32 · y) := fun _ _ => rfl
theorem ignoresOvf_sub32_right (x : Value) : IgnoresOvf (sub32 x ·) := fun _ _ => rfl
theorem ignoresOvf_rotl32 (c : Int) : IgnoresOvf (rotl32 · c) := fun _ _ => rfl
theorem ignoresOvf_rotr32 (c : Int) : IgnoresOvf (rotr32 · c) := fun _ _ => rfl
theorem ignoresOvf_shl32 (c : Int) : IgnoresOvf (fun v => shl32 v.u32 c) := fun _ _ => rfl
theorem ignoresOvf_shr32 (c : Int) : IgnoresOvf (fun v => shr32 v.u32 c) := fun _ _ => rfl
theorem ignoresOvf_cmp32 (n : Word) : IgnoresOvf (cmp32 · n) := fun _ _ => rfl

/-- The two values have the same limbs. -/
structure SameLimbs (v v' : Value) : Prop where
  hi : v.hi = v'.hi
  lo : v.lo = v'.lo

/-- A function that ignores `ovf` makes the same of two values with the same limbs. -/
theorem SameLimbs.apply {α : Type} {f : Value → α} {v v' : Value} (h : SameLimbs v v') (hf : IgnoresOvf f) : f v = f v' := by
  obtain ⟨hi, lo, ovf⟩ := v
  obtain ⟨hi', lo', ovf'⟩ := v'
  obtain ⟨rfl, rfl⟩ : hi = hi' ∧ lo = lo' := ⟨h.hi, h.lo⟩
  exact hf ⟨hi, lo, ovf'⟩ ovf

/-- The same word in both, whatever the accumulators. -/
theorem SameLimbs.ofWord {x x' : Word} (h : x = x') (o o' : Word) : SameLimbs (Value.ofWord x o) (Value.ofWord x' o') :=
  ⟨congrArg hiLimb h, congrArg loLimb h⟩

theorem SameLimbs.of_eq {v v' : Value} (h : v = v') : SameLimbs v v' := ⟨congrArg Value.hi h, congrArg Value.lo h⟩

/-- A sum's limbs come from its operands' limbs (R120, R121). -/
theorem SameLimbs.sumValue {x x' y y' : Value} (hx : SameLimbs x x') (hy : SameLimbs y y') :
    SameLimbs (sumValue x y) (sumValue x' y') := by
  have hadd : add32 x y = add32 x' y' :=
    (hx.apply (ignoresOvf_add32_left y)).trans (hy.apply (ignoresOvf_add32_right x'))
  exact ⟨congrArg Sum.hi hadd, congrArg Sum.lo hadd⟩

/-- A difference comes from its operands' limbs (R123). -/
theorem SameLimbs.sub32 {x x' y y' : Value} (hx : SameLimbs x x') (hy : SameLimbs y y') :
    sub32 x y = sub32 x' y' :=
  (hx.apply (ignoresOvf_sub32_left y)).trans (hy.apply (ignoresOvf_sub32_right x'))

/-! ### Updates of two states that agree but for `ovf` -/

namespace AgreeButOvf

theorem getV {s s' : State} (h : AgreeButOvf s s') (r : VReg) : SameLimbs (s.getV r) (s'.getV r) := ⟨h.his r, h.los r⟩

theorem setV {s s' : State} (h : AgreeButOvf s s') (d : VReg) {v v' : Value} (hv : SameLimbs v v') :
    AgreeButOvf (s.setV d v) (s'.setV d v') where
  his r := by rw [State.getV_setV, State.getV_setV]; split; exacts [hv.hi, h.his r]
  los r := by rw [State.getV_setV, State.getV_setV]; split; exacts [hv.lo, h.los r]
  sregs := h.sregs
  buf := h.buf
  status := h.status
  cfg := h.cfg
  pending := h.pending
  reads := h.reads

theorem setInt {s s' : State} (h : AgreeButOvf s s') (d : SReg) {x x' : Word} (hx : x = x') :
    AgreeButOvf (s.setInt d x) (s'.setInt d x') :=
  { h with sregs := fun r => by rw [State.getS_setInt, State.getS_setInt, hx, h.sregs] }

theorem setByte {s s' : State} (h : AgreeButOvf s s') (a : BufAddr) (b : Byte) : AgreeButOvf (s.setByte a b) (s'.setByte a b) :=
  { h with buf := by rw [State.setByte_buf, State.setByte_buf, h.buf] }

theorem writeQuad {s s' : State} (h : AgreeButOvf s s') (addr : BufAddr) {q q' : Quad} (hq : q = q') :
    AgreeButOvf (s.writeQuad addr q) (s'.writeQuad addr q') := by
  subst hq
  exact (((h.setByte _ _).setByte _ _).setByte _ _).setByte _ _

theorem complete {s s' : State} (h : AgreeButOvf s s') : AgreeButOvf s.complete s'.complete :=
  { h with status := congrArg Status.onSuccess h.status }

theorem raise {s s' : State} (h : AgreeButOvf s s') (e : ErrorKind) : AgreeButOvf (s.raise e) (s'.raise e) :=
  { h with status := congrArg (Status.onError · e) h.status }

theorem readQuad {s s' : State} (h : AgreeButOvf s s') (addr : BufAddr) : s.readQuad addr = s'.readQuad addr := by
  simp only [State.readQuad, State.byte, h.buf]

end AgreeButOvf

/-- The next states that two outcomes answer, where both answer one, agree but for `ovf`. -/
def OutcomesAgree (o o' : Result) : Prop := ∀ t t', o = .next t → o' = .next t' → AgreeButOvf t t'

/-! ### The shapes of commands -/

theorem OutcomesAgree.done {t t' : State} (h : AgreeButOvf t t') : OutcomesAgree (done t) (done t') := by
  intro u u' hu hu'
  rw [done_eq_next hu, done_eq_next hu']
  exact h.complete

theorem OutcomesAgree.fail {s s' : State} (h : AgreeButOvf s s') (e : ErrorKind) : OutcomesAgree (fail e s) (fail e s') := by
  intro u u' hu hu'
  rw [fail_eq_next hu, fail_eq_next hu']
  exact h.raise e

section
variable {s s' : State} (h : AgreeButOvf s s')
include h

/-- A guarded read sees S, which agrees (R11). -/
theorem OutcomesAgree.withInt {b : SReg} {f f' : Word → State} (hf : ∀ n, AgreeButOvf (f n) (f' n)) :
    OutcomesAgree (withInt s b f) (withInt s' b f') := by
  have harg : intArg s b = intArg s' b := by unfold intArg; rw [h.sregs b]
  unfold Machine.withInt
  rw [harg]
  cases intArg s' b with
  | none => exact .fail h .typeError
  | some n => exact .done (hf n)

theorem OutcomesAgree.fromBytes (order : Quad → Word) (d : VReg) (addr : BufAddr) (len : Fin 16) :
    OutcomesAgree (fromBytes order d addr len s) (fromBytes order d addr len s') := by
  unfold Machine.fromBytes
  split
  · exact .done (h.setV d (.ofWord (congrArg order (h.readQuad addr)) _ _))
  · exact .fail h .rangeError

theorem OutcomesAgree.turnByReg {f : Value → Int → Word} (hf : ∀ c, IgnoresOvf (f · c)) (d a : VReg) (b : SReg) :
    OutcomesAgree (turnByReg f d a b s) (turnByReg f d a b s') :=
  .withInt h fun n => h.setV d (.ofWord ((h.getV a).apply (hf (regAmount n))) _ _)

theorem OutcomesAgree.turnByImm {f : Value → Int → Word} (hf : ∀ c, IgnoresOvf (f · c)) (d a : VReg) (c : Int) :
    OutcomesAgree (turnByImm f d a c s) (turnByImm f d a c s') :=
  .done (h.setV d (.ofWord ((h.getV a).apply (hf c)) _ _))

/-- A comparison writes what the comparator's flags make, and the flags come from the limbs (R170). -/
theorem OutcomesAgree.compare (f : CmpFlags → Word) (d : SReg) (a : VReg) (b : SReg) :
    OutcomesAgree (Machine.withInt s b fun n => s.setInt d (f (cmp32 (s.getV a) n)))
      (Machine.withInt s' b fun n => s'.setInt d (f (cmp32 (s'.getV a) n))) :=
  .withInt h fun n => h.setInt d (congrArg f ((h.getV a).apply (ignoresOvf_cmp32 n)))

/-- A store writes the bytes of the value's limbs, in one order or the other (R104, R105). -/
theorem OutcomesAgree.store (addr : BufAddr) (order : Quad → Quad) (a : VReg) :
    OutcomesAgree (Machine.done (s.writeQuad addr (order (s.getV a).quad)))
      (Machine.done (s'.writeQuad addr (order (s'.getV a).quad))) :=
  .done (h.writeQuad addr (congrArg order ((h.getV a).apply ignoresOvf_quad)))

theorem OutcomesAgree.toi64 (d a : VReg) : OutcomesAgree (execToi64 d a s) (execToi64 d a s') := by
  have hsign : signLimb (s.getV a) = signLimb (s'.getV a) := (h.getV a).apply ignoresOvf_signLimb
  unfold execToi64
  split
  · exact .done ((h.setV d ⟨hsign, hsign⟩).setV (pairReg d) ⟨h.his a, h.los a⟩)
  · exact .fail h .illegal

/-- The product of two values comes from their logical values and the configuration (R126). -/
theorem OutcomesAgree.mul (d a b : VReg) (w : Fin 64) : OutcomesAgree (execMul d a b w s) (execMul d a b w s') := by
  have hx : (s.getV a).u32 = (s'.getV a).u32 := (h.getV a).apply ignoresOvf_u32
  have hy : (s.getV b).u32 = (s'.getV b).u32 := (h.getV b).apply ignoresOvf_u32
  refine .done (h.setV d (.of_eq ?_))
  rw [h.cfg, hx, hy]

theorem OutcomesAgree.mulh (d a : VReg) (b : SReg) (w : Fin 64) : OutcomesAgree (execMulh d a b w s) (execMulh d a b w s') := by
  have hx : (s.getV a).u32 = (s'.getV a).u32 := (h.getV a).apply ignoresOvf_u32
  refine .withInt h fun n => h.setV d (.of_eq ?_)
  rw [h.cfg, hx]

/-- Limb by limb: a bitwise operation's limbs come from its operands' limbs (R140 to R142). -/
theorem OutcomesAgree.limbwise (f : Limb → Limb → Limb) (g : Word → Word → Word) (d a b : VReg) :
    OutcomesAgree
      (Machine.done (s.setV d ⟨f (s.getV a).hi (s.getV b).hi, f (s.getV a).lo (s.getV b).lo, g (s.getV a).ovf (s.getV b).ovf⟩))
      (Machine.done (s'.setV d ⟨f (s'.getV a).hi (s'.getV b).hi, f (s'.getV a).lo (s'.getV b).lo,
        g (s'.getV a).ovf (s'.getV b).ovf⟩)) :=
  .done (h.setV d ⟨congrArg₂ f (h.his a) (h.his b), congrArg₂ f (h.los a) (h.los b)⟩)

/-- Every command but RDOVF, command by command. -/
theorem exec_outcomesAgree (i : Instr) (hi : ∀ (d : SReg) (a : VReg), i ≠ .rdovf d a) :
    OutcomesAgree (exec i s) (exec i s') := by
  cases i with
  | fromint d a => exact .withInt h fun n => h.setV d (.of_eq rfl)
  | fromb d addr len => exact .fromBytes h Quad.forward d addr len
  | fromrb d addr len => exact .fromBytes h (fun q => q.reverse.forward) d addr len
  | tob a addr => exact .store h addr id a
  | torb a addr => exact .store h addr Quad.reverse a
  | toint d a => exact .done (h.setInt d ((h.getV a).apply ignoresOvf_u32))
  | toi64 d a => exact .toi64 h d a
  | add d a b => exact .done (h.setV d ((h.getV a).sumValue (h.getV b)))
  | addh d a b => exact .withInt h fun n => h.setV d ((h.getV a).sumValue (.of_eq rfl))
  | sub d a b => exact .done (h.setV d (.of_eq ((h.getV a).sub32 (h.getV b))))
  | subh d a b => exact .withInt h fun n => h.setV d (.of_eq ((h.getV a).sub32 (.of_eq rfl)))
  | mul d a b w => exact .mul h d a b w
  | mulh d a b w => exact .mulh h d a b w
  | rdovf d a => exact absurd rfl (hi d a)
  | and d a b => exact .limbwise h (· &&& ·) andOvf d a b
  | or d a b => exact .limbwise h (· ||| ·) orOvf d a b
  | xor d a b => exact .limbwise h (· ^^^ ·) xorOvf d a b
  | maskh d a b =>
    exact .withInt h fun m => h.setV d ⟨congrArg (· &&& hiLimb m) (h.his a), congrArg (· &&& loLimb m) (h.los a)⟩
  | rotl d a b => exact .turnByReg h ignoresOvf_rotl32 d a b
  | rotr d a b => exact .turnByReg h ignoresOvf_rotr32 d a b
  | shl d a b => exact .turnByReg h ignoresOvf_shl32 d a b
  | shr d a b => exact .turnByReg h ignoresOvf_shr32 d a b
  | rotli d a c => exact .turnByImm h ignoresOvf_rotl32 d a c
  | rotri d a c => exact .turnByImm h ignoresOvf_rotr32 d a c
  | shli d a c => exact .turnByImm h ignoresOvf_shl32 d a c
  | shri d a c => exact .turnByImm h ignoresOvf_shr32 d a c
  | cmph d a b => exact .compare h CmpFlags.order d a b
  | gth d a b => exact .compare h (fun f => flagWord f.gt) d a b
  | lth d a b => exact .compare h (fun f => flagWord f.lt) d a b

end

/-- Settles O30: `exec_outcomesAgree` for the two states the command leaves. -/
theorem ovfReachesNothingButRdovf : Obligations.OvfReachesNothingButRdovf :=
  fun i _ _ t t' h hi ht ht' => exec_outcomesAgree h i hi t t' ht ht'

end Sys2Proof.Machine
end

section
/-! PROOF. The host's transactions and BUF (O12, O17, O24, O40): what a read of a stored value answers, what a transaction outside
the map does, that a run serves its transactions, and what a value stored in one byte order reads as in the other. -/

namespace Sys2Proof.Machine

/-! ### Reads of stored values -/

/-- Settles O12: the address names the row BUF[a] or SDATA[i], and a read of a row only adds its value to the host's record. -/
theorem hostReadsReturnTheStoredValue : Obligations.HostReadsReturnTheStoredValue := by
  intro s rest
  constructor
  · intro a hp
    exact step_read hp (hostPort_buf a)
  · intro i hp
    exact step_read hp (hostPort_sdata i)

/-! ### Transactions outside the map -/

/-- The word addresses of R49 are the multiples of 4 from 0x100 to 0x148: sixteen of SDATA, then SKIND, STATUS and CMD. -/
theorem wordAddress_iff {n : Nat} : ((∃ i : SReg, n = 0x100 + 4 * i.val) ∨ n = 0x140 ∨ n = 0x144 ∨ n = 0x148) ↔
    0x100 ≤ n ∧ n ≤ 0x148 ∧ n % 4 = 0 := by
  constructor
  · rintro (⟨i, rfl⟩ | rfl | rfl | rfl) <;> omega
  · rintro ⟨hlow, hhigh, halign⟩
    by_cases hsdata : n < 0x140
    · exact .inl ⟨⟨(n - 0x100) / 4, by omega⟩, by simp only; omega⟩
    · exact .inr (by omega)

/-- A transaction at no address of R49, or not of its row's width, matches no row (R50). -/
theorem hostPort_reserved {addr : HostAddr} {width : Nat} (hbyte : ¬(width = 8 ∧ addr.toNat ≤ 0xFF))
    (hword : ¬(width = 32 ∧ ((∃ i : SReg, addr.toNat = 0x100 + 4 * i.val) ∨ addr.toNat = 0x140 ∨ addr.toNat = 0x144 ∨
      addr.toNat = 0x148))) : hostPort addr width = .reserved := by
  rw [wordAddress_iff] at hword
  exact hostPort_eq_reserved_iff.mpr ⟨by omega, hword⟩

/-- Settles O17: outside the map `hostWrite` keeps the state and `hostRead` is 0. -/
theorem reservedTransactionsAreIgnored : Obligations.ReservedTransactionsAreIgnored := by
  intro s rest addr width hbyte hword
  have hport : hostPort addr width = .reserved := hostPort_reserved hbyte hword
  constructor
  · intro w hp
    exact step_write hp hport
  · intro hp
    exact step_read hp hport

/-! ### Runs -/

/-- Settles O24, by induction on the length of the run: a step always answers, and it takes the oldest transaction off the
list. -/
theorem runsServeEveryTransaction : Obligations.RunsServeEveryTransaction := by
  intro k
  induction k with
  | zero => exact fun s => ⟨s, rfl, List.drop_zero.symm⟩
  | succ k ih =>
    intro s
    obtain ⟨u, hu⟩ := step_total s
    obtain ⟨t, ht, hpending⟩ := ih u
    refine ⟨t, (core_run_succ hu k).trans ht, ?_⟩
    rw [hpending, step_pending hu, List.drop_tail]

/-! ### A store and a read in the other byte order -/

/-- TOB leaves the value's bytes at its address, most significant first (R43, R104). -/
theorem readQuad_of_tob {a : VReg} {addr : BufAddr} {s t : State} (hs : Memory.wf s.buf = true)
    (h : exec (.tob a addr) s = .next t) : t.readQuad addr = (s.getV a).quad := by
  obtain rfl := done_eq_next h
  exact State.readQuad_writeQuad hs addr _

/-- A construction from four bytes leaves the word they make in the order given (R102, R103). -/
theorem u32_of_fromBytes {order : Quad → Word} {d : VReg} {addr : BufAddr} {s t : State}
    (h : fromBytes order d addr 4 s = .next t) : (t.getV d).u32 = order (s.readQuad addr) := by
  obtain ⟨-, rfl⟩ | ⟨hlen, -⟩ := fromBytes_cases h
  · rw [State.getV_complete, State.getV_setV_same, Value.u32_ofWord]
  · exact absurd rfl hlen

/-- The bytes of a value packed in reverse order are its byte swap (R43, R44). -/
theorem forward_reverse_quad (v : Value) : v.quad.reverse.forward =
    v.lo.extractLsb' 0 8 ++ v.lo.extractLsb' 8 8 ++ v.hi.extractLsb' 0 8 ++ v.hi.extractLsb' 8 8 := rfl

/-- Settles O40: TOB stores the bytes of the value in forward order and FROMRB packs them reversed, which is the byte swap. -/
theorem tobThenFromrbSwapsBytes : Obligations.TobThenFromrbSwapsBytes := by
  intro d a addr s t u ⟨hbuf, _⟩ hstore hload
  have hloaded : (u.getV d).u32 = (t.readQuad addr).reverse.forward :=
    u32_of_fromBytes (order := fun q => q.reverse.forward) hload
  rw [hloaded, readQuad_of_tob hbuf hstore, forward_reverse_quad]

end Sys2Proof.Machine
end

section
/-! PROOF. The decoder and the encoder (O1 to O6). What the decoder does is said once, row by row, in `decode_eq_checked` and
`decode_unassigned`; every statement about words follows from these two and from `encode_matches_row`. -/

namespace Sys2Proof

/-! ### The decoder, row by row -/

/-- The command of the same row as `i` whose operands are the fields of `w` (R61, R63, R64). -/
def Instr.reread : Instr → Word → Instr
  | .fromint _ _, w => .fromint (rd w) (ra w)
  | .fromb _ _ _, w => .fromb (rd w) (addrField w) (lenField w)
  | .fromrb _ _ _, w => .fromrb (rd w) (addrField w) (lenField w)
  | .tob _ _, w => .tob (ra w) (addrField w)
  | .torb _ _, w => .torb (ra w) (addrField w)
  | .toint _ _, w => .toint (rd w) (ra w)
  | .toi64 _ _, w => .toi64 (rd w) (ra w)
  | .add _ _ _, w => .add (rd w) (ra w) (rb w)
  | .addh _ _ _, w => .addh (rd w) (ra w) (rb w)
  | .sub _ _ _, w => .sub (rd w) (ra w) (rb w)
  | .subh _ _ _, w => .subh (rd w) (ra w) (rb w)
  | .mul _ _ _ _, w => .mul (rd w) (ra w) (rb w) (widthField w)
  | .mulh _ _ _ _, w => .mulh (rd w) (ra w) (rb w) (widthField w)
  | .rdovf _ _, w => .rdovf (rd w) (ra w)
  | .and _ _ _, w => .and (rd w) (ra w) (rb w)
  | .or _ _ _, w => .or (rd w) (ra w) (rb w)
  | .xor _ _ _, w => .xor (rd w) (ra w) (rb w)
  | .maskh _ _ _, w => .maskh (rd w) (ra w) (rb w)
  | .rotl _ _ _, w => .rotl (rd w) (ra w) (rb w)
  | .rotr _ _ _, w => .rotr (rd w) (ra w) (rb w)
  | .shl _ _ _, w => .shl (rd w) (ra w) (rb w)
  | .shr _ _ _, w => .shr (rd w) (ra w) (rb w)
  | .rotli _ _ _, w => .rotli (rd w) (ra w) (amountField w)
  | .rotri _ _ _, w => .rotri (rd w) (ra w) (amountField w)
  | .shli _ _ _, w => .shli (rd w) (ra w) (amountField w)
  | .shri _ _ _, w => .shri (rd w) (ra w) (amountField w)
  | .cmph _ _ _, w => .cmph (rd w) (ra w) (rb w)
  | .gth _ _ _, w => .gth (rd w) (ra w) (rb w)
  | .lth _ _ _, w => .lth (rd w) (ra w) (rb w)

@[simp] theorem Instr.opc_reread (i : Instr) (w : Word) : (i.reread w).opc = i.opc := by cases i <;> rfl

@[simp] theorem Instr.fmt_reread (i : Instr) (w : Word) : (i.reread w).fmt = i.fmt := by cases i <;> rfl

/-- A word with the opcode of a command is checked against that command's format and read by its fields (R65, R66). -/
theorem decode_eq_checked {i : Instr} {w : Word} (h : opcField w = i.opc) : decode w = checked i.fmt w (i.reread w) := by
  unfold decode
  rw [h]
  cases i <;> rfl

/-- A word whose opcode is in no row is refused (R67). -/
theorem decode_unassigned {w : Word} (h : ∀ r ∈ opcodeMap, opcField w ≠ r.opc) : decode w = .error .unassignedOpcode := by
  replace h : opcField w ∉ opcodeMap.map OpcodeRow.opc := by simpa [eq_comm] using h
  unfold decode
  split
  case h_30 => rfl
  all_goals exact absurd (by rw [‹opcField w = _›]; decide) h

/-- One command of each row of the opcode map, in the map's order (R65). -/
def rowCommands : List Instr := [
  .fromint 0 0, .fromb 0 0 0, .fromrb 0 0 0, .tob 0 0, .torb 0 0, .toint 0 0, .toi64 0 0, .add 0 0 0, .addh 0 0 0,
  .sub 0 0 0, .subh 0 0 0, .mul 0 0 0 0, .mulh 0 0 0 0, .rdovf 0 0, .and 0 0 0, .or 0 0 0, .xor 0 0 0, .maskh 0 0 0,
  .rotl 0 0 0, .rotr 0 0 0, .shl 0 0 0, .shr 0 0 0, .rotli 0 0 0, .rotri 0 0 0, .shli 0 0 0, .shri 0 0 0, .cmph 0 0 0,
  .gth 0 0 0, .lth 0 0 0]

theorem map_opcodeMap_eq_map_rowCommands :
    opcodeMap.map (fun r => (r.opc, r.fmt)) = rowCommands.map fun i => (i.opc, i.fmt) := rfl

/-- Every row of the opcode map is the row of a command (R65). -/
theorem exists_command_of_mem_opcodeMap {r : OpcodeRow} (hr : r ∈ opcodeMap) :
    ∃ i : Instr, i.opc = r.opc ∧ i.fmt = r.fmt := by
  have hmem : (r.opc, r.fmt) ∈ rowCommands.map fun i => (i.opc, i.fmt) :=
    map_opcodeMap_eq_map_rowCommands ▸ List.mem_map_of_mem hr
  obtain ⟨i, -, hi⟩ := List.mem_map.mp hmem
  exact ⟨i, (Prod.mk.inj hi).1, (Prod.mk.inj hi).2⟩

/-- What the decoder makes of a word with an assigned opcode (R65, R66). -/
theorem decode_of_mem_opcodeMap {r : OpcodeRow} {w : Word} (hr : r ∈ opcodeMap) (hw : opcField w = r.opc) :
    ∃ i : Instr, i.opc = r.opc ∧ i.fmt = r.fmt ∧ decode w = checked r.fmt w i := by
  obtain ⟨i, hopc, hfmt⟩ := exists_command_of_mem_opcodeMap hr
  have hd := decode_eq_checked (hw.trans hopc.symm)
  exact ⟨i.reread w, i.opc_reread w ▸ hopc, i.fmt_reread w ▸ hfmt, hfmt ▸ hd⟩

/-- A word with the opcode of a row and a must-be-zero bit of its format set does not decode (R66). -/
theorem decode_of_mustBeZero_set {r : OpcodeRow} {w : Word} (hr : r ∈ opcodeMap) (hw : opcField w = r.opc)
    (hset : w &&& r.fmt.mustBeZero ≠ 0) : decode w = .error .mustBeZeroBitSet := by
  obtain ⟨i, -, -, hd⟩ := decode_of_mem_opcodeMap hr hw
  exact hd.trans (checked_of_set hset i)

/-- Every word that matches a command's row is that command with the operands that its fields make (R65, R71). -/
theorem rowDecodes (i : Instr) : Machine.RowDecodes (i.opc ++ 0#24) i.fmt.mask i.reread := by
  intro w hw
  obtain ⟨hopc, hclear⟩ := row_match hw
  rw [decode_eq_checked hopc, checked_of_clear hclear]

/-- Only a word that matches a command's row decodes, and then to that row's command (R65, R66). -/
theorem decode_eq_ok {w : Word} {i : Instr} (h : decode w = .ok i) :
    ∃ j : Instr, w &&& j.fmt.mask = j.opc ++ 0#24 ∧ i = j.reread w := by
  by_cases hrow : ∃ r ∈ opcodeMap, opcField w = r.opc
  · obtain ⟨r, hr, hw⟩ := hrow
    obtain ⟨j, hj, -⟩ := exists_command_of_mem_opcodeMap hr
    have hopc : opcField w = j.opc := hw.trans hj.symm
    rw [decode_eq_checked hopc] at h
    obtain ⟨hclear, hi⟩ := checked_eq_ok h
    exact ⟨j, hopc ▸ (mustBeZero_clear_iff j.fmt w).mp hclear, hi⟩
  · rw [decode_unassigned fun r hr hw => hrow ⟨r, hr, hw⟩] at h
    cases h

/-! ### Words written out by hand -/

/-- Settles O1: each word matches the row of its command, and its fields are the operands. -/
theorem decodeOfWrittenWords : Obligations.DecodeOfWrittenWords :=
  ⟨rowDecodes (.fromint 1 1) _ rfl, rowDecodes (.fromb 1 253 4) _ rfl, rowDecodes (.tob 2 0x10) _ rfl,
    rowDecodes (.rdovf 4 3) _ rfl, rowDecodes (.toi64 4 1) _ rfl, rowDecodes (.sub 4 3 15) _ rfl,
    rowDecodes (.addh 2 1 5) _ rfl, rowDecodes (.mul 3 1 2 32) _ rfl, rowDecodes (.rotli 2 1 16) _ rfl,
    rowDecodes (.shli 3 3 (-1)) _ rfl, rowDecodes (.cmph 3 1 2) _ rfl⟩

/-! ### Decoding what was encoded -/

/-- The word of every well-formed command matches its row (R62, R65, R75). -/
theorem encode_matches_row (i : Instr) : Laws.EncodeMatchesRow.Statement i := by
  cases i with
  | fromint d a => exact Laws.EncodeMatchesRow.fromint d a
  | fromb d addr len => exact Laws.EncodeMatchesRow.fromb d addr len
  | fromrb d addr len => exact Laws.EncodeMatchesRow.fromrb d addr len
  | tob a addr => exact Laws.EncodeMatchesRow.tob a addr
  | torb a addr => exact Laws.EncodeMatchesRow.torb a addr
  | toint d a => exact Laws.EncodeMatchesRow.toint d a
  | toi64 d a => exact Laws.EncodeMatchesRow.toi64 d a
  | add d a b => exact Laws.EncodeMatchesRow.add d a b
  | addh d a b => exact Laws.EncodeMatchesRow.addh d a b
  | sub d a b => exact Laws.EncodeMatchesRow.sub d a b
  | subh d a b => exact Laws.EncodeMatchesRow.subh d a b
  | mul d a b w => exact Laws.EncodeMatchesRow.mul d a b w
  | mulh d a b w => exact Laws.EncodeMatchesRow.mulh d a b w
  | rdovf d a => exact Laws.EncodeMatchesRow.rdovf d a
  | and d a b => exact Laws.EncodeMatchesRow.and d a b
  | or d a b => exact Laws.EncodeMatchesRow.or d a b
  | xor d a b => exact Laws.EncodeMatchesRow.xor d a b
  | maskh d a b => exact Laws.EncodeMatchesRow.maskh d a b
  | rotl d a b => exact Laws.EncodeMatchesRow.rotl d a b
  | rotr d a b => exact Laws.EncodeMatchesRow.rotr d a b
  | shl d a b => exact Laws.EncodeMatchesRow.shl d a b
  | shr d a b => exact Laws.EncodeMatchesRow.shr d a b
  | rotli d a c => exact Laws.EncodeMatchesRow.rotli d a c
  | rotri d a c => exact Laws.EncodeMatchesRow.rotri d a c
  | shli d a c => exact Laws.EncodeMatchesRow.shli d a c
  | shri d a c => exact Laws.EncodeMatchesRow.shri d a c
  | cmph d a b => exact Laws.EncodeMatchesRow.cmph d a b
  | gth d a b => exact Laws.EncodeMatchesRow.gth d a b
  | lth d a b => exact Laws.EncodeMatchesRow.lth d a b

/-- The fields of an encoded well-formed command are its operands (R63, R64, R75). Only an amount needs its range for this: the
other operands are in range by their types, and the pair of TOI64 matters to the mask alone. -/
theorem reread_encode {i : Instr} (h : i.WellFormed) : i.reread (encode i) = i := by
  cases i with
  | rotli d a c | rotri d a c | shli d a c | shri d a c => simp [Instr.reread, encode, amountField_pack _ _ _ _ h]
  | _ => simp [Instr.reread, encode]

/-- Settles O2: the word matches its command's row, so it decodes to that command with its own fields, and these are the
operands. -/
theorem decodeOfEncode : Obligations.DecodeOfEncode := by
  intro i h
  calc decode (encode i) = .ok (i.reread (encode i)) := rowDecodes i _ (encode_matches_row i h)
    _ = .ok i := by rw [reread_encode h]

/-! ### Encoding what was decoded -/

section
variable {f : Fmt} {o : BitVec 8} {w : Word}

/-- A word that matches a row is packed of the row's opcode and the word's own fields (R61, R65). -/
theorem pack_fields_of_match (h : w &&& f.mask = o ++ 0#24) :
    pack o (regBits (rd w)) (regBits (ra w)) (regBits (rb w)) (w.extractLsb' 0 12) = w := by
  simpa only [rd, ra, rb, regBits_regNum, (row_match h).1] using pack_fields w

/-- In a word that matches a row, bits below the opcode that the format's mask covers are 0 (R62, R66). -/
theorem bits_eq_zero_of_match (h : w &&& f.mask = o ++ 0#24) {start len : Nat} (hlow : start + len ≤ 24)
    (hmask : f.mask.extractLsb' start len = BitVec.allOnes len) : w.extractLsb' start len = 0 := by
  have hzero : (o ++ 0#24 : Word).extractLsb' start len = 0 := by
    rw [BitVec.extractLsb'_append_eq_of_add_le hlow]
    simp
  rw [← h, BitVec.extractLsb'_and, hmask, BitVec.and_allOnes] at hzero
  exact hzero

/-- IMM12 is 0 in the formats whose mask covers it (R62). -/
theorem imm_eq_zero_of_match (h : w &&& f.mask = o ++ 0#24) (hmask : f.mask.extractLsb' 0 12 = BitVec.allOnes 12) :
    w.extractLsb' 0 12 = 0 :=
  bits_eq_zero_of_match h (by decide) hmask

/-- RB is 0 in the formats whose mask covers it (R62). -/
theorem rb_eq_zero_of_match (h : w &&& f.mask = o ++ 0#24) (hmask : f.mask.extractLsb' 12 4 = BitVec.allOnes 4) :
    regBits (rb w) = 0 :=
  (regBits_regNum _).trans (bits_eq_zero_of_match h (by decide) hmask)

/-- RA is 0 in the formats whose mask covers it (R62). -/
theorem ra_eq_zero_of_match (h : w &&& f.mask = o ++ 0#24) (hmask : f.mask.extractLsb' 16 4 = BitVec.allOnes 4) :
    regBits (ra w) = 0 :=
  (regBits_regNum _).trans (bits_eq_zero_of_match h (by decide) hmask)

/-- RD is 0 in the formats whose mask covers it (R62). -/
theorem rd_eq_zero_of_match (h : w &&& f.mask = o ++ 0#24) (hmask : f.mask.extractLsb' 20 4 = BitVec.allOnes 4) :
    regBits (rd w) = 0 :=
  (regBits_regNum _).trans (bits_eq_zero_of_match h (by decide) hmask)

/-! IMM12 as its readings write it back. -/

/-- An amount is read and written in the same two's complement (R64, R75). -/
theorem amountBits_amountField (w : Word) : amountBits (amountField w) = w.extractLsb' 0 12 :=
  BitVec.ofInt_toInt

/-- IMM12 read as two's complement is in the range of an amount (R64). -/
theorem amountInRange_amountField (w : Word) : amountInRange (amountField w) = true := by
  have hlow : -2048 ≤ (w.extractLsb' 0 12).toInt := BitVec.le_toInt _
  have hhigh : (w.extractLsb' 0 12).toInt < 2048 := BitVec.toInt_lt
  exact decide_eq_true ⟨hlow, Int.le_of_lt_add_one hhigh⟩

/-- IMM12 is LEN over ADDR (R64). -/
theorem lenBits_append_addrField (w : Word) : lenBits (lenField w) ++ addrField w = w.extractLsb' 0 12 := by
  have hlen : lenBits (lenField w) = w.extractLsb' 8 4 := regBits_regNum _
  rw [hlen]
  exact BitVec.extractLsb'_append_extractLsb'_eq_extractLsb' rfl

/-- IMM12 is W when its bits 11:6 are 0 (R62, R64). -/
theorem widthBits_widthField {w : Word} (h : w.extractLsb' 6 6 = 0) : widthBits (widthField w) = w.extractLsb' 0 12 := by
  have himm : w.extractLsb' 6 6 ++ w.extractLsb' 0 6 = w.extractLsb' 0 12 :=
    BitVec.extractLsb'_append_extractLsb'_eq_extractLsb' rfl
  calc widthBits (widthField w) = (w.extractLsb' 0 6).setWidth 12 := BitVec.ofNat_toNat ..
    _ = 0#6 ++ w.extractLsb' 0 6 := BitVec.setWidth_eq_append (by decide)
    _ = w.extractLsb' 0 12 := by rw [← himm, h]; rfl

/-! One lemma per format: a word that matches is the pack of the fields the format has (R62). -/

theorem pack_r3_of_match (h : w &&& Fmt.r3.mask = o ++ 0#24) :
    pack o (regBits (rd w)) (regBits (ra w)) (regBits (rb w)) 0 = w := by
  simpa only [imm_eq_zero_of_match h (by decide)] using pack_fields_of_match h

/-- Formats IV, XS and P have RD and RA alone. -/
theorem pack_rd_ra_of_match (h : w &&& f.mask = o ++ 0#24) (hrb : f.mask.extractLsb' 12 4 = BitVec.allOnes 4)
    (himm : f.mask.extractLsb' 0 12 = BitVec.allOnes 12) : pack o (regBits (rd w)) (regBits (ra w)) 0 0 = w := by
  simpa only [rb_eq_zero_of_match h hrb, imm_eq_zero_of_match h himm] using pack_fields_of_match h

/-- The mask of format P covers bit 20, the lowest of RD (R62, R68). -/
theorem evenReg_rd_of_match (h : w &&& Fmt.p.mask = o ++ 0#24) : evenReg (rd w) = true := by
  have heven : ∀ x : BitVec 4, x.extractLsb' 0 1 = 0 → evenReg (regNum x) = true := by decide
  have hlow : (w.extractLsb' 20 4).extractLsb' 0 1 = w.extractLsb' 20 1 := by
    apply BitVec.eq_of_getLsbD_eq
    intro i hi
    simp only [BitVec.getLsbD_extractLsb']
    grind
  exact heven _ (hlow.trans (bits_eq_zero_of_match h (by decide) (by decide)))

theorem pack_w_of_match (h : w &&& Fmt.w.mask = o ++ 0#24) :
    pack o (regBits (rd w)) (regBits (ra w)) (regBits (rb w)) (widthBits (widthField w)) = w := by
  rw [widthBits_widthField (bits_eq_zero_of_match h (by decide) (by decide)), pack_fields_of_match h]

theorem pack_i_of_match (h : w &&& Fmt.i.mask = o ++ 0#24) :
    pack o (regBits (rd w)) (regBits (ra w)) 0 (amountBits (amountField w)) = w := by
  rw [amountBits_amountField]
  simpa only [rb_eq_zero_of_match h (by decide)] using pack_fields_of_match h

theorem pack_bl_of_match (h : w &&& Fmt.bl.mask = o ++ 0#24) :
    pack o (regBits (rd w)) 0 0 (lenBits (lenField w) ++ addrField w) = w := by
  rw [lenBits_append_addrField]
  simpa only [ra_eq_zero_of_match h (by decide), rb_eq_zero_of_match h (by decide)] using pack_fields_of_match h

theorem pack_bs_of_match (h : w &&& Fmt.bs.mask = o ++ 0#24) :
    pack o 0 (regBits (ra w)) 0 (0#4 ++ addrField w) = w := by
  have hlen : lenBits (lenField w) = 0#4 := (regBits_regNum _).trans (bits_eq_zero_of_match h (by decide) (by decide))
  rw [← hlen, lenBits_append_addrField]
  simpa only [rd_eq_zero_of_match h (by decide), rb_eq_zero_of_match h (by decide)] using pack_fields_of_match h

end

/-- Rereading a word that matches a command's row gives a well-formed command, and its encoding is the word (R62 to R64,
R75). -/
theorem encode_reread {i : Instr} {w : Word} (h : w &&& i.fmt.mask = i.opc ++ 0#24) :
    (i.reread w).WellFormed ∧ encode (i.reread w) = w := by
  cases i with
  | fromint d a | toint d a | rdovf d a => exact ⟨rfl, pack_rd_ra_of_match (f := .iv) h (by decide) (by decide)⟩
  | toi64 d a => exact ⟨evenReg_rd_of_match h, pack_rd_ra_of_match (f := .p) h (by decide) (by decide)⟩
  | add d a b | sub d a b | and d a b | or d a b | xor d a b => exact ⟨rfl, pack_r3_of_match h⟩
  | addh d a b | subh d a b | maskh d a b | rotl d a b | rotr d a b | shl d a b | shr d a b =>
    exact ⟨rfl, pack_r3_of_match h⟩
  | cmph d a b | gth d a b | lth d a b => exact ⟨rfl, pack_r3_of_match h⟩
  | mul d a b w | mulh d a b w => exact ⟨rfl, pack_w_of_match h⟩
  | rotli d a c | rotri d a c | shli d a c | shri d a c => exact ⟨amountInRange_amountField w, pack_i_of_match h⟩
  | fromb d addr len | fromrb d addr len => exact ⟨rfl, pack_bl_of_match h⟩
  | tob a addr | torb a addr => exact ⟨rfl, pack_bs_of_match h⟩

/-- Settles O3: a word that decodes matches a row, and a word that matches a row is the word of its own reading. -/
theorem encodeOfDecode : Obligations.EncodeOfDecode := by
  intro w i h
  obtain ⟨j, hmatch, rfl⟩ := decode_eq_ok h
  exact encode_reread hmatch

/-! ### The opcode map -/

/-- No two rows of the opcode map have the same opcode (R65). -/
theorem nodup_opcodes : (opcodeMap.map OpcodeRow.opc).Nodup := by decide

/-- At most one row matches a word: a row that does has the word's opcode (R71). -/
theorem length_filter_accepts_le_one (w : Word) : (opcodeMap.filter fun r => r.accepts w).length ≤ 1 := by
  have hopc : ∀ r ∈ opcodeMap, r.accepts w = true → (r.opc == opcField w) = true := fun r _ hr =>
    beq_iff_eq.mpr (row_match (eq_of_beq hr)).1.symm
  calc (opcodeMap.filter fun r => r.accepts w).length = opcodeMap.countP fun r => r.accepts w :=
        List.countP_eq_length_filter.symm
    _ ≤ opcodeMap.countP fun r => r.opc == opcField w := List.countP_mono_left hopc
    _ = (opcodeMap.map OpcodeRow.opc).count (opcField w) := by rw [List.count, List.countP_map]; rfl
    _ ≤ 1 := List.nodup_iff_count_le_one.mp nodup_opcodes _

/-- Settles O4: opcodes are distinct, a word that matches a row is its command, and without a row to match either the opcode
is unassigned or the check of its row fails. -/
theorem decodingTotalAndUnambiguous : Obligations.DecodingTotalAndUnambiguous := by
  intro w
  refine ⟨length_filter_accepts_le_one w, fun r hr hmatch => ?_, fun hnone => ?_⟩
  · obtain ⟨hopc, hclear⟩ := row_match hmatch
    obtain ⟨i, hi, hf, hd⟩ := decode_of_mem_opcodeMap hr hopc
    exact ⟨i, hd.trans (checked_of_clear hclear i), hi, hf⟩
  · by_cases hrow : ∃ r ∈ opcodeMap, opcField w = r.opc
    · obtain ⟨r, hr, hopc⟩ := hrow
      have hset : w &&& r.fmt.mustBeZero ≠ 0 := fun hclear =>
        hnone r hr (by rw [(mustBeZero_clear_iff r.fmt w).mp hclear, hopc, OpcodeRow.matchWord])
      exact ⟨_, decode_of_mustBeZero_set hr hopc hset⟩
    · exact ⟨_, decode_unassigned fun r hr hw => hrow ⟨r, hr, hw⟩⟩

end Sys2Proof

namespace Sys2Proof.Machine

/-! ### Illegal words -/

/-- Issuing a word that is no command records Illegal and changes nothing else (R71, R203, R204). -/
theorem issue_raises_illegal {w : Word} {e : DecodeError} (h : decode w = .error e) (s : State) :
    ∃ t, issue w s = .next t ∧ OnlyStatusChanged s t ∧ StatusRaised .illegal s t :=
  ⟨_, issue_of_error h s, onlyStatusChanged_raise s .illegal, statusRaised_raise s .illegal⟩

/-- Bits 31:24 by a shift (R61). -/
theorem toNat_shiftRight_eq_opcField (w : Word) : (w >>> 24).toNat = (opcField w).toNat := by
  have := w.isLt
  simp only [opcField, BitVec.toNat_ushiftRight, BitVec.extractLsb'_toNat, Nat.shiftRight_eq_div_pow]
  omega

theorem setWidth_shiftRight_eq_opcField (w : Word) : (w >>> 24).setWidth 8 = opcField w := by
  apply BitVec.eq_of_toNat_eq
  rw [BitVec.toNat_setWidth, toNat_shiftRight_eq_opcField, Nat.mod_eq_of_lt (opcField w).isLt]

/-- The opcodes of the map lie between the unassigned ranges (R65, R67). -/
theorem opcodeMap_ranges : ∀ r ∈ opcodeMap, (0x01 ≤ r.opc.toNat ∧ r.opc.toNat ≤ 0x07) ∨
    (0x10 ≤ r.opc.toNat ∧ r.opc.toNat ≤ 0x16) ∨ (0x20 ≤ r.opc.toNat ∧ r.opc.toNat ≤ 0x23) ∨
    (0x30 ≤ r.opc.toNat ∧ r.opc.toNat ≤ 0x33) ∨ (0x38 ≤ r.opc.toNat ∧ r.opc.toNat ≤ 0x3B) ∨
    (0x40 ≤ r.opc.toNat ∧ r.opc.toNat ≤ 0x42) := by
  decide

/-- Settles O5: an OPC in one of the ranges is in no row of the map, so the word does not decode. -/
theorem unassignedOpcodesRaiseIllegal : Obligations.UnassignedOpcodesRaiseIllegal := by
  intro w s o ho
  have hrow : ∀ r ∈ opcodeMap, opcField w ≠ r.opc := by
    intro r hr hw
    have hnat : o = r.opc.toNat := (toNat_shiftRight_eq_opcField w).trans (congrArg BitVec.toNat hw)
    have hrange := opcodeMap_ranges r hr
    omega
  exact issue_raises_illegal (decode_unassigned hrow) s

/-- Settles O6: the check of the row's format fails; bit 20 is a must-be-zero bit of TOI64's format P. -/
theorem mustBeZeroBitsRaiseIllegal : Obligations.MustBeZeroBitsRaiseIllegal := by
  constructor
  · intro w s r hr hw hset
    rw [setWidth_shiftRight_eq_opcField] at hw
    exact issue_raises_illegal (decode_of_mustBeZero_set hr hw hset) s
  · intro w s hw hbit
    rw [toNat_shiftRight_eq_opcField] at hw
    have hmem : (⟨"TOI64", 0x07#8, .p⟩ : OpcodeRow) ∈ opcodeMap := by decide
    have hset : w &&& Fmt.p.mustBeZero ≠ 0 := by
      intro h
      have hclear : (w &&& Fmt.p.mustBeZero).getLsbD 20 = false := by rw [h]; rfl
      have hmask : Fmt.p.mustBeZero.getLsbD 20 = true := by decide
      rw [BitVec.getLsbD_and, hbit, hmask] at hclear
      cases hclear
    exact issue_raises_illegal (decode_of_mustBeZero_set hmem (BitVec.eq_of_toNat_eq hw) hset) s

end Sys2Proof.Machine
end

section
/-! PROOF. The pseudo-instructions (O7): each expansion by the lemma for its command's shape, with the datapath at the
expansion's own operands. -/

namespace Sys2Proof.Machine

/-! ### The datapaths at the expansions' operands -/

/-- A rotation by 0 leaves the logical value (R151). -/
theorem rotl32_zero (v : Value) : rotl32 v 0 = v.u32 := by
  have hgone : ∀ x : Limb, x >>> 16 = 0 := fun x => BitVec.ushiftRight_eq_zero (le_refl 16)
  simp [rotl32, Value.u32, hgone]

/-- A shift by 32 leaves nothing (R153). -/
theorem shl32_thirtyTwo (x : Word) : shl32 x 32 = 0 := rfl

/-- Construction from four bytes completes (R102, R103). -/
theorem fromBytes_four (order : Quad → Word) (d : VReg) (addr : BufAddr) (s : State) :
    fromBytes order d addr 4 s = done (s.setV d (Value.ofWord (order (s.readQuad addr)) noOvf)) :=
  if_pos rfl

/-- The four bytes of an access, at the addresses from `addr` on, modulo 256 (R41). -/
theorem readQuad_eq (s : State) (addr : BufAddr) :
    s.readQuad addr = ⟨s.byte addr, s.byte (addr + 1), s.byte (addr + 2), s.byte (addr + 3)⟩ := by
  have hzero : byteAddr addr 0 = addr := BitVec.add_zero addr
  rw [State.readQuad, hzero]
  rfl

/-- A W of 0 means MUL_ZERO_WIDTH iterations (R74, R126). -/
theorem mulValue_zero_u32 (cfg : Config) (x n : Word) : (mulValue cfg x n 0).u32 = mul32 x n cfg.mulZeroWidth :=
  Value.u32_ofWord _ noOvf

/-! ### The expansions -/

/-- MV copies both limbs and clears `ovf` (R74). -/
theorem completes_mv (d a : VReg) (s : State) : Completes (.rotli d a 0) s [d] [] [] fun t =>
    (t.getV d).hi = (s.getV a).hi ∧ (t.getV d).lo = (s.getV a).lo ∧ (t.getV d).ovf = 0 := by
  refine completes_of_setV rfl ?_
  rw [State.getV_complete, State.getV_setV_same, rotl32_zero]
  exact ⟨hiLimb_u32 _, loLimb_u32 _, rfl⟩

/-- CLR leaves 0 and clears `ovf` (R74). -/
theorem completes_clr (d : VReg) (s : State) : Completes (.shli d d 32) s [d] [] [] fun t => t.getV d = ⟨0, 0, 0⟩ := by
  refine completes_of_setV rfl ?_
  rw [State.getV_complete, State.getV_setV_same]
  exact congrArg (Value.ofWord · noOvf) (shl32_thirtyTwo _)

theorem completes_fromb_four (d : VReg) (addr : BufAddr) (s : State) : Completes (.fromb d addr 4) s [d] [] [] fun t =>
    (t.getV d).u32 = s.byte addr ++ s.byte (addr + 1) ++ s.byte (addr + 2) ++ s.byte (addr + 3) := by
  refine completes_of_setV (fromBytes_four Quad.forward d addr s) ?_
  rw [State.getV_complete, State.getV_setV_same, Value.u32_ofWord, readQuad_eq]
  rfl

theorem completes_fromrb_four (d : VReg) (addr : BufAddr) (s : State) : Completes (.fromrb d addr 4) s [d] [] [] fun t =>
    (t.getV d).u32 = s.byte (addr + 3) ++ s.byte (addr + 2) ++ s.byte (addr + 1) ++ s.byte addr := by
  refine completes_of_setV (fromBytes_four (fun q => q.reverse.forward) d addr s) ?_
  rw [State.getV_complete, State.getV_setV_same, Value.u32_ofWord, readQuad_eq]
  rfl

theorem completes_mul_zero (d a b : VReg) (s : State) : Completes (.mul d a b 0) s [d] [] [] fun t =>
    (t.getV d).u32 = mul32 (s.getV a).u32 (s.getV b).u32 s.cfg.mulZeroWidth := by
  refine completes_of_setV rfl ?_
  rw [State.getV_complete, State.getV_setV_same, mulValue_zero_u32]

theorem guarded_mulh_zero (d a : VReg) (b : SReg) (s : State) : Guarded (.mulh d a b 0) b s fun n =>
    Completes (.mulh d a b 0) s [d] [] [] fun t => (t.getV d).u32 = mul32 (s.getV a).u32 n s.cfg.mulZeroWidth := by
  refine guarded_of_withInt rfl fun hdone => completes_of_setV hdone ?_
  rw [State.getV_complete, State.getV_setV_same, mulValue_zero_u32]

/-- Settles O7: the expansion and, for each, its effect. -/
theorem pseudoInstructionEffects : Obligations.PseudoInstructionEffects :=
  ⟨fun d a s => ⟨rfl, completes_mv d a s⟩, fun d s => ⟨rfl, completes_clr d s⟩,
    fun d addr s => ⟨rfl, completes_fromb_four d addr s⟩, fun d addr s => ⟨rfl, completes_fromrb_four d addr s⟩,
    fun d a b s => ⟨rfl, completes_mul_zero d a b s⟩, fun d a b s => ⟨rfl, guarded_mulh_zero d a b s⟩⟩

end Sys2Proof.Machine
end

section
/-! PROOF. The assembler (O8). `accepts_iff_fits` says which operand lists it accepts, in the terms of the assembly column of
R72, and `standsFor_of_assembleOps` what an accepted list stands for, in the terms of `writtenForm` and `pseudoForm`. Both are
read off the rows of the table of mnemonics, with a lemma for each operand shape. -/

namespace Sys2Proof.Machine

/-! ### Which operands are of a kind -/

/-- The numbers below `m` are the values of `Fin m`. -/
theorem exists_eq_fin_iff {m : Nat} {n : Int} : (∃ k : Fin m, n = k.val) ↔ 0 ≤ n ∧ n < m := by
  constructor
  · rintro ⟨k, rfl⟩
    have := k.isLt
    omega
  · intro h
    exact ⟨⟨n.toNat, by omega⟩, by simp only; omega⟩

@[simp] theorem fits_v {o : Operand} : OperandKind.v.fits o = true ↔ ∃ r, o = .v r := by
  cases o <;> simp [OperandKind.fits]

@[simp] theorem fits_evenV {o : Operand} : OperandKind.evenV.fits o = true ↔ ∃ r, evenReg r = true ∧ o = .v r := by
  cases o <;> simp [OperandKind.fits, evenReg]

@[simp] theorem fits_s {o : Operand} : OperandKind.s.fits o = true ↔ ∃ r, o = .s r := by
  cases o <;> simp [OperandKind.fits]

@[simp] theorem fits_amount {o : Operand} : OperandKind.amount.fits o = true ↔ ∃ c, amountInRange c = true ∧ o = .imm c := by
  cases o <;> simp [OperandKind.fits, amountInRange]

@[simp] theorem fits_width {o : Operand} : OperandKind.width.fits o = true ↔ ∃ w : Fin 64, o = .imm w.val := by
  cases o with
  | imm n => simp only [OperandKind.fits, Operand.imm.injEq, exists_eq_fin_iff, decide_eq_true_eq]; omega
  | v r | s r => simp [OperandKind.fits]

@[simp] theorem fits_len {o : Operand} : OperandKind.len.fits o = true ↔ ∃ l : Fin 16, o = .imm l.val := by
  cases o with
  | imm n => simp only [OperandKind.fits, Operand.imm.injEq, exists_eq_fin_iff, decide_eq_true_eq]; omega
  | v r | s r => simp [OperandKind.fits]

@[simp] theorem fits_addr {o : Operand} : OperandKind.addr.fits o = true ↔ ∃ a : BufAddr, o = .imm a.toNat := by
  cases o with
  | imm n =>
    have hfin : (∃ a : BufAddr, n = a.toNat) ↔ ∃ k : Fin 256, n = k.val :=
      ⟨fun ⟨a, h⟩ => ⟨a.toFin, h⟩, fun ⟨k, h⟩ => ⟨BitVec.ofFin k, h⟩⟩
    simp only [OperandKind.fits, Operand.imm.injEq, hfin, exists_eq_fin_iff, decide_eq_true_eq]; omega
  | v r | s r => simp [OperandKind.fits]

@[simp] theorem operandsFit_nil {ops : List Operand} : OperandsFit [] ops ↔ ops = [] := List.forall₂_nil_left_iff

@[simp] theorem operandsFit_cons {k : OperandKind} {ks : List OperandKind} {ops : List Operand} :
    OperandsFit (k :: ks) ops ↔ ∃ o rest, k.fits o = true ∧ OperandsFit ks rest ∧ ops = o :: rest :=
  List.forall₂_cons_left_iff

/-! ### Which operand lists a parser accepts -/

/-- The parser accepts exactly the operand lists that fit one of the lists of kinds. -/
def Accepts (parse : List Operand → Option Instr) (columns : List (List OperandKind)) : Prop :=
  ∀ ops, (∃ i, parse ops = some i) ↔ ∃ kinds ∈ columns, OperandsFit kinds ops

theorem accepts_r3 (f : VReg → VReg → VReg → Instr) : Accepts (asmR3 f) [[.v, .v, .v]] := by
  simp [Accepts, asmR3_eq_some]

theorem accepts_rs (f : VReg → VReg → SReg → Instr) : Accepts (asmRS f) [[.v, .v, .s]] := by
  simp [Accepts, asmRS_eq_some]

theorem accepts_c (f : SReg → VReg → SReg → Instr) : Accepts (asmC f) [[.s, .v, .s]] := by
  simp [Accepts, asmC_eq_some]

theorem accepts_iv (f : VReg → SReg → Instr) : Accepts (asmIV f) [[.v, .s]] := by
  simp [Accepts, asmIV_eq_some]

theorem accepts_xs (f : SReg → VReg → Instr) : Accepts (asmXS f) [[.s, .v]] := by
  simp [Accepts, asmXS_eq_some]

theorem accepts_p (f : VReg → VReg → Instr) : Accepts (asmP f) [[.evenV, .v]] := by
  simp [Accepts, asmP_eq_some, and_comm]

theorem accepts_i (f : VReg → VReg → Int → Instr) : Accepts (asmI f) [[.v, .v, .amount]] := by
  simp [Accepts, asmI_eq_some, and_comm]

theorem accepts_bs (f : VReg → BufAddr → Instr) : Accepts (asmBS f) [[.v, .addr]] := by
  simp [Accepts, asmBS_eq_some]

theorem accepts_bl (f : VReg → BufAddr → Fin 16 → Instr) (p : VReg → BufAddr → Pseudo) :
    Accepts (asmBL f p) [[.v, .addr, .len], [.v, .addr]] := by
  simp [Accepts, asmBL_eq_some, exists_or]

theorem accepts_mul : Accepts asmMul [[.v, .v, .v, .width], [.v, .v, .v]] := by
  simp [Accepts, asmMul_eq_some, exists_or]

theorem accepts_mulh : Accepts asmMulh [[.v, .v, .s, .width], [.v, .v, .s]] := by
  simp [Accepts, asmMulh_eq_some, exists_or]

theorem accepts_mv : Accepts asmMv [[.v, .v]] := by
  simp [Accepts, asmMv_eq_some]

theorem accepts_clr : Accepts asmClr [[.v]] := by
  simp [Accepts, asmClr_eq_some]

/-- The kinds that the rows of the assembly column with this mnemonic list. -/
def columnsOf (name : String) : List (List OperandKind) := (assemblyColumn.filter fun row => row.1 == name).map Prod.snd

theorem mem_columnsOf {name : String} {kinds : List OperandKind} :
    kinds ∈ columnsOf name ↔ (name, kinds) ∈ assemblyColumn := by
  simp [columnsOf]

/-- The parser of every mnemonic accepts exactly the operand lists that fit that mnemonic's rows of the assembly column (R72,
R74). -/
theorem assemblyTable_accepts : ∀ row ∈ assemblyTable, Accepts row.2 (columnsOf row.1) := by
  simp only [assemblyTable, List.forall_mem_cons]
  exact ⟨accepts_iv _, accepts_bl _ _, accepts_bl _ _, accepts_bs _, accepts_bs _, accepts_xs _, accepts_p _, accepts_r3 _,
    accepts_rs _, accepts_r3 _, accepts_rs _, accepts_mul, accepts_mulh, accepts_xs _, accepts_r3 _, accepts_r3 _,
    accepts_r3 _, accepts_rs _, accepts_rs _, accepts_rs _, accepts_rs _, accepts_rs _, accepts_i _, accepts_i _,
    accepts_i _, accepts_i _, accepts_c _, accepts_c _, accepts_c _, accepts_mv, accepts_clr, nofun⟩

/-- The operands go to the parser of the mnemonic (R72). -/
theorem assembleOps_of_lookup {name : String} {parse : List Operand → Option Instr}
    (h : assemblyTable.lookup name = some parse) {ops : List Operand} : assembleOps name ops = parse ops := by
  rw [assembleOps, h, Option.bind_some]

/-- Every mnemonic of the assembly column has a parser (R72, R74). -/
theorem exists_parser_of_mem_column {name : String} {kinds : List OperandKind} (h : (name, kinds) ∈ assemblyColumn) :
    ∃ parse, (name, parse) ∈ assemblyTable ∧ ∀ ops, assembleOps name ops = parse ops := by
  have hnames : ∀ row ∈ assemblyColumn, (assemblyTable.lookup row.1).isSome = true := by decide
  obtain ⟨parse, hl⟩ := Option.isSome_iff_exists.mp (hnames _ h)
  obtain ⟨before, after, ht, -⟩ := List.lookup_eq_some_iff.mp hl
  exact ⟨parse, by simp [ht], fun _ => assembleOps_of_lookup hl⟩

/-- The assembler accepts exactly the operand lists that fit a row of the assembly column (R72, R73, R74). -/
theorem accepts_iff_fits (name : String) (ops : List Operand) :
    (∃ i, assembleOps name ops = some i) ↔ ∃ row ∈ assemblyColumn, row.1 = name ∧ OperandsFit row.2 ops := by
  constructor
  · rintro ⟨i, h⟩
    obtain ⟨row, hrow, rfl, hparse⟩ := assembleOps_cases h
    obtain ⟨kinds, hkinds, hfit⟩ := (assemblyTable_accepts row hrow ops).mp ⟨i, hparse⟩
    exact ⟨_, mem_columnsOf.mp hkinds, rfl, hfit⟩
  · rintro ⟨⟨name, kinds⟩, hrow, rfl, hfit⟩
    obtain ⟨parse, hparse, heq⟩ := exists_parser_of_mem_column hrow
    rw [heq]
    exact (assemblyTable_accepts _ hparse ops).mpr ⟨kinds, mem_columnsOf.mpr hrow, hfit⟩

/-! ### What the accepted operands stand for -/

/-- The operand list `ops` after the mnemonic `name` is how R72 writes the well-formed command `i`, or how R74 writes a
pseudo-instruction that expands to `i`. -/
def StandsFor (name : String) (ops : List Operand) (i : Instr) : Prop :=
  (i.WellFormed ∧ writtenForm i = (name, ops)) ∨ ∃ p : Pseudo, pseudoForm p = (name, ops) ∧ p.expand = i

/-- The parser answers only commands that its operands stand for. -/
def Faithful (name : String) (parse : List Operand → Option Instr) : Prop :=
  ∀ ops i, parse ops = some i → StandsFor name ops i

section
variable {name : String}

theorem StandsFor.command {ops : List Operand} {i : Instr} (hwf : i.WellFormed) (hform : writtenForm i = (name, ops)) :
    StandsFor name ops i :=
  .inl ⟨hwf, hform⟩

theorem StandsFor.expansion {ops : List Operand} {p : Pseudo} (hform : pseudoForm p = (name, ops)) :
    StandsFor name ops p.expand :=
  .inr ⟨p, hform, rfl⟩

theorem faithful_r3 {f : VReg → VReg → VReg → Instr} (h : ∀ d a b, StandsFor name [.v d, .v a, .v b] (f d a b)) :
    Faithful name (asmR3 f) := by
  intro ops i hp
  obtain ⟨d, a, b, rfl, rfl⟩ := asmR3_eq_some.mp hp
  exact h d a b

theorem faithful_rs {f : VReg → VReg → SReg → Instr} (h : ∀ d a b, StandsFor name [.v d, .v a, .s b] (f d a b)) :
    Faithful name (asmRS f) := by
  intro ops i hp
  obtain ⟨d, a, b, rfl, rfl⟩ := asmRS_eq_some.mp hp
  exact h d a b

theorem faithful_c {f : SReg → VReg → SReg → Instr} (h : ∀ d a b, StandsFor name [.s d, .v a, .s b] (f d a b)) :
    Faithful name (asmC f) := by
  intro ops i hp
  obtain ⟨d, a, b, rfl, rfl⟩ := asmC_eq_some.mp hp
  exact h d a b

theorem faithful_iv {f : VReg → SReg → Instr} (h : ∀ d a, StandsFor name [.v d, .s a] (f d a)) :
    Faithful name (asmIV f) := by
  intro ops i hp
  obtain ⟨d, a, rfl, rfl⟩ := asmIV_eq_some.mp hp
  exact h d a

theorem faithful_xs {f : SReg → VReg → Instr} (h : ∀ d a, StandsFor name [.s d, .v a] (f d a)) :
    Faithful name (asmXS f) := by
  intro ops i hp
  obtain ⟨d, a, rfl, rfl⟩ := asmXS_eq_some.mp hp
  exact h d a

theorem faithful_p {f : VReg → VReg → Instr} (h : ∀ d a, evenReg d = true → StandsFor name [.v d, .v a] (f d a)) :
    Faithful name (asmP f) := by
  intro ops i hp
  obtain ⟨d, a, rfl, heven, rfl⟩ := asmP_eq_some.mp hp
  exact h d a heven

theorem faithful_i {f : VReg → VReg → Int → Instr}
    (h : ∀ d a c, amountInRange c = true → StandsFor name [.v d, .v a, .imm c] (f d a c)) : Faithful name (asmI f) := by
  intro ops i hp
  obtain ⟨d, a, c, rfl, hrange, rfl⟩ := asmI_eq_some.mp hp
  exact h d a c hrange

theorem faithful_bs {f : VReg → BufAddr → Instr} (h : ∀ a addr, StandsFor name [.v a, .imm addr.toNat] (f a addr)) :
    Faithful name (asmBS f) := by
  intro ops i hp
  obtain ⟨a, addr, rfl, rfl⟩ := asmBS_eq_some.mp hp
  exact h a addr

theorem faithful_bl {f : VReg → BufAddr → Fin 16 → Instr} {p : VReg → BufAddr → Pseudo}
    (h : ∀ d addr len, StandsFor name [.v d, .imm addr.toNat, .imm len.val] (f d addr len))
    (hp : ∀ d addr, StandsFor name [.v d, .imm addr.toNat] (p d addr).expand) : Faithful name (asmBL f p) := by
  intro ops i hops
  obtain ⟨d, addr, len, rfl, rfl⟩ | ⟨d, addr, rfl, rfl⟩ := asmBL_eq_some.mp hops
  · exact h d addr len
  · exact hp d addr

end

theorem faithful_mul : Faithful "MUL" asmMul := by
  intro ops i hp
  obtain ⟨d, a, b, w, rfl, rfl⟩ | ⟨d, a, b, rfl, rfl⟩ := asmMul_eq_some.mp hp
  · exact .command rfl rfl
  · exact .expansion (p := .mul d a b) rfl

theorem faithful_mulh : Faithful "MULH" asmMulh := by
  intro ops i hp
  obtain ⟨d, a, b, w, rfl, rfl⟩ | ⟨d, a, b, rfl, rfl⟩ := asmMulh_eq_some.mp hp
  · exact .command rfl rfl
  · exact .expansion (p := .mulh d a b) rfl

theorem faithful_mv : Faithful "MV" asmMv := by
  intro ops i hp
  obtain ⟨d, a, rfl, rfl⟩ := asmMv_eq_some.mp hp
  exact .expansion (p := .mv d a) rfl

theorem faithful_clr : Faithful "CLR" asmClr := by
  intro ops i hp
  obtain ⟨d, rfl, rfl⟩ := asmClr_eq_some.mp hp
  exact .expansion (p := .clr d) rfl

/-- The parser of every mnemonic answers only commands that the operands after that mnemonic stand for (R72, R74). -/
theorem assemblyTable_faithful : ∀ row ∈ assemblyTable, Faithful row.1 row.2 := by
  simp only [assemblyTable, List.forall_mem_cons]
  exact ⟨faithful_iv fun _ _ => .command rfl rfl, faithful_bl (fun _ _ _ => .command rfl rfl) fun _ _ => .expansion rfl,
    faithful_bl (fun _ _ _ => .command rfl rfl) fun _ _ => .expansion rfl, faithful_bs fun _ _ => .command rfl rfl,
    faithful_bs fun _ _ => .command rfl rfl, faithful_xs fun _ _ => .command rfl rfl, faithful_p fun _ _ h => .command h rfl,
    faithful_r3 fun _ _ _ => .command rfl rfl, faithful_rs fun _ _ _ => .command rfl rfl,
    faithful_r3 fun _ _ _ => .command rfl rfl, faithful_rs fun _ _ _ => .command rfl rfl, faithful_mul, faithful_mulh,
    faithful_xs fun _ _ => .command rfl rfl, faithful_r3 fun _ _ _ => .command rfl rfl,
    faithful_r3 fun _ _ _ => .command rfl rfl, faithful_r3 fun _ _ _ => .command rfl rfl,
    faithful_rs fun _ _ _ => .command rfl rfl, faithful_rs fun _ _ _ => .command rfl rfl,
    faithful_rs fun _ _ _ => .command rfl rfl, faithful_rs fun _ _ _ => .command rfl rfl,
    faithful_rs fun _ _ _ => .command rfl rfl, faithful_i fun _ _ _ h => .command h rfl,
    faithful_i fun _ _ _ h => .command h rfl, faithful_i fun _ _ _ h => .command h rfl,
    faithful_i fun _ _ _ h => .command h rfl, faithful_c fun _ _ _ => .command rfl rfl,
    faithful_c fun _ _ _ => .command rfl rfl, faithful_c fun _ _ _ => .command rfl rfl, faithful_mv, faithful_clr, nofun⟩

theorem standsFor_of_assembleOps {name : String} {ops : List Operand} {i : Instr} (h : assembleOps name ops = some i) :
    StandsFor name ops i := by
  obtain ⟨row, hrow, rfl, hparse⟩ := assembleOps_cases h
  exact assemblyTable_faithful row hrow ops i hparse

/-- A pseudo-instruction expands to a well-formed command (R74). -/
theorem wellFormed_expand (p : Pseudo) : p.expand.WellFormed := by cases p <;> rfl

/-! ### What is written is accepted -/

/-- A well-formed command, as R72 writes it, is accepted and gives itself. -/
theorem assembleOps_writtenForm {i : Instr} (h : i.WellFormed) :
    assembleOps (writtenForm i).1 (writtenForm i).2 = some i := by
  cases i with
  | fromint d a | toint d a | rdovf d a => rfl
  | add d a b | sub d a b | and d a b | or d a b | xor d a b => rfl
  | addh d a b | subh d a b | maskh d a b | rotl d a b | rotr d a b | shl d a b | shr d a b => rfl
  | cmph d a b | gth d a b | lth d a b => rfl
  | toi64 d a => exact (assembleOps_of_lookup rfl).trans (asmP_eq_some.mpr ⟨d, a, rfl, h, rfl⟩)
  | rotli d a c | rotri d a c | shli d a c | shri d a c =>
    exact (assembleOps_of_lookup rfl).trans (asmI_eq_some.mpr ⟨d, a, c, rfl, h, rfl⟩)
  | mul d a b w => exact (assembleOps_of_lookup rfl).trans (asmMul_eq_some.mpr (.inl ⟨d, a, b, w, rfl, rfl⟩))
  | mulh d a b w => exact (assembleOps_of_lookup rfl).trans (asmMulh_eq_some.mpr (.inl ⟨d, a, b, w, rfl, rfl⟩))
  | fromb d addr len | fromrb d addr len =>
    exact (assembleOps_of_lookup rfl).trans (asmBL_eq_some.mpr (.inl ⟨d, addr, len, rfl, rfl⟩))
  | tob a addr | torb a addr => exact (assembleOps_of_lookup rfl).trans (asmBS_eq_some.mpr ⟨a, addr, rfl, rfl⟩)

/-- A pseudo-instruction, as R74 writes it, is accepted and gives its expansion. -/
theorem assembleOps_pseudoForm (p : Pseudo) : assembleOps (pseudoForm p).1 (pseudoForm p).2 = some p.expand := by
  cases p with
  | mv d a | clr d | mul d a b | mulh d a b => rfl
  | fromb d addr | fromrb d addr => exact (assembleOps_of_lookup rfl).trans (asmBL_eq_some.mpr (.inr ⟨d, addr, rfl, rfl⟩))

/-! ### Refusals -/

/-- A mnemonic's rows of the assembly column differ in how many operands they list (R72, R74). -/
theorem nodup_name_length : (assemblyColumn.map fun row => (row.1, row.2.length)).Nodup := by decide

/-- Operands as many as a row lists, but that do not fit it, are refused: no other row of the mnemonic lists as many (R73). -/
theorem refused_of_not_fits {row : String × List OperandKind} (hrow : row ∈ assemblyColumn) {ops : List Operand}
    (hlen : ops.length = row.2.length) (hfit : ¬OperandsFit row.2 ops) : assembleOps row.1 ops = none := by
  refine Option.eq_none_iff_forall_ne_some.mpr fun i hi => ?_
  obtain ⟨row', hrow', hname, hfit'⟩ := (accepts_iff_fits row.1 ops).mp ⟨i, hi⟩
  have hsame : row' = row := List.inj_on_of_nodup_map nodup_name_length hrow' hrow
    (Prod.ext hname ((List.Forall₂.length_eq hfit').trans hlen))
  exact hfit (hsame ▸ hfit')

/-- One operand that is not of the row's kind is enough for a refusal (R73). -/
theorem refused_of_operand {name : String} {kinds : List OperandKind} (hrow : (name, kinds) ∈ assemblyColumn)
    {ops : List Operand} (hlen : ops.length = kinds.length) (k : Fin kinds.length)
    (hbad : kinds[k].fits (ops[k.val]'(hlen.symm ▸ k.isLt)) = false) : assembleOps name ops = none := by
  refine refused_of_not_fits hrow hlen fun hfit => ?_
  have hgood := (List.forall₂_iff_get.mp hfit).2 k k.isLt (hlen.symm ▸ k.isLt)
  exact absurd hgood (Bool.eq_false_iff.mp hbad)

/-- Settles O8: acceptance from the rows of the assembly column, faithfulness from the parsers, and every refusal from the
operand that is not of its row's kind. -/
theorem assemblerRefusesAndNeverTruncates : Obligations.AssemblerRefusesAndNeverTruncates := by
  refine ⟨accepts_iff_fits, fun name ops i h => ?_, fun i h => assembleOps_writtenForm h, assembleOps_pseudoForm,
    fun row hrow ops hlen hfit => refused_of_not_fits hrow hlen hfit, ?amount, ?width, ?sequence, ?address, ?pair, ?file⟩
  · obtain ⟨hwf, hform⟩ | ⟨p, hform, rfl⟩ := standsFor_of_assembleOps h
    · exact ⟨hwf, .inl hform⟩
    · exact ⟨wellFormed_expand p, .inr ⟨p, hform, rfl⟩⟩
  case amount =>
    intro d a c hc name hname
    have hrow : ∀ name ∈ ["ROTLI", "ROTRI", "SHLI", "SHRI"], (name, [.v, .v, .amount]) ∈ assemblyColumn := by decide
    exact refused_of_operand (hrow name hname) rfl 2 (decide_eq_false (by omega))
  case width =>
    intro d a b sb n hn
    have hmul : ("MUL", [.v, .v, .v, .width]) ∈ assemblyColumn := by decide
    have hmulh : ("MULH", [.v, .v, .s, .width]) ∈ assemblyColumn := by decide
    have hbad : OperandKind.width.fits (.imm n) = false := decide_eq_false (by omega)
    exact ⟨refused_of_operand hmul rfl 3 hbad, refused_of_operand hmulh rfl 3 hbad⟩
  case sequence =>
    intro d n l hnl name hname
    have hrow : ∀ name ∈ ["FROMB", "FROMRB"], (name, [.v, .addr, .len]) ∈ assemblyColumn := by decide
    obtain hn | hl := hnl
    · exact refused_of_operand (hrow name hname) rfl 1 (decide_eq_false (by omega))
    · exact refused_of_operand (hrow name hname) rfl 2 (decide_eq_false (by omega))
  case address =>
    intro d n hn name hname
    have hrow : ∀ name ∈ ["FROMB", "FROMRB", "TOB", "TORB"], (name, [.v, .addr]) ∈ assemblyColumn := by decide
    exact refused_of_operand (hrow name hname) rfl 1 (decide_eq_false (by omega))
  case pair =>
    intro d a hodd
    have hrow : ("TOI64", [.evenV, .v]) ∈ assemblyColumn := by decide
    exact refused_of_operand hrow rfl 0 (beq_eq_false_iff_ne.mpr (by omega))
  case file =>
    intro d a b
    have hrow : ("ADD", [.v, .v, .v]) ∈ assemblyColumn := by decide
    exact refused_of_operand hrow rfl 0 rfl

end Sys2Proof.Machine
end

section
/-! PROOF. Construction, conversion and serialization (O32 to O39, O41). The one fact about bytes is that packing four of them
and taking a value apart undo each other (R43); with it, a load after a store and a store after a load follow once for both
byte orders, from what a 4-byte write leaves to a 4-byte read. -/

namespace Sys2Proof.Machine

/-! ### Sequences of bytes and values -/

/-- Packing four bytes makes the value whose limbs are the two pairs of bytes (R10, R43). -/
theorem ofWord_forward (q : Quad) (o : Word) : Value.ofWord q.forward o = ⟨q.b0 ++ q.b1, q.b2 ++ q.b3, o⟩ :=
  have hassoc : q.forward = (q.b0 ++ q.b1) ++ (q.b2 ++ q.b3) := BitVec.append_assoc
  Value.ext_u32 ((Value.u32_ofWord q.forward o).trans hassoc) rfl

theorem quad_hi (v : Value) : v.quad.b0 ++ v.quad.b1 = v.hi :=
  (BitVec.extractLsb'_append_extractLsb'_eq_extractLsb' rfl).trans BitVec.extractLsb'_eq_self

theorem quad_lo (v : Value) : v.quad.b2 ++ v.quad.b3 = v.lo :=
  (BitVec.extractLsb'_append_extractLsb'_eq_extractLsb' rfl).trans BitVec.extractLsb'_eq_self

/-- Packing the bytes of a value gives its limbs back (R43, R104). -/
theorem ofWord_forward_quad (v : Value) (o : Word) : Value.ofWord v.quad.forward o = ⟨v.hi, v.lo, o⟩ := by
  rw [ofWord_forward, quad_hi, quad_lo]

/-- The bytes of a packed sequence are the sequence (R43). -/
theorem quad_ofWord_forward (q : Quad) (o : Word) : (Value.ofWord q.forward o).quad = q := by
  rw [ofWord_forward]
  simp only [Value.quad, BitVec.extractLsb'_append_eq_left, BitVec.extractLsb'_append_eq_right]

theorem Quad.reverse_reverse (q : Quad) : q.reverse.reverse = q := rfl

/-! ### Four bytes of BUF -/

/-- The four bytes of an access in reverse order (R41, R44). -/
theorem reverse_readQuad (s : State) (addr : BufAddr) :
    (s.readQuad addr).reverse = ⟨s.byte (addr + 3), s.byte (addr + 2), s.byte (addr + 1), s.byte addr⟩ :=
  congrArg Quad.reverse (readQuad_eq s addr)

/-- The addresses of an access are the next four from its own, modulo 256 (R41). -/
theorem quadAddrs_eq (addr : BufAddr) : quadAddrs addr = [addr, addr + 1, addr + 2, addr + 3] := by
  have hzero : byteAddr addr 0 = addr := BitVec.add_zero addr
  rw [quadAddrs, hzero]
  rfl

/-- Each byte of a 4-byte write reads back, on a canonical BUF (R41, R104). -/
theorem State.byte_writeQuad {s : State} (h : Memory.wf s.buf = true) (addr : BufAddr) (q : Quad) :
    (s.writeQuad addr q).byte addr = q.b0 ∧ (s.writeQuad addr q).byte (addr + 1) = q.b1 ∧
    (s.writeQuad addr q).byte (addr + 2) = q.b2 ∧ (s.writeQuad addr q).byte (addr + 3) = q.b3 := by
  have hquad := State.readQuad_writeQuad h addr q
  rw [readQuad_eq] at hquad
  exact ⟨congrArg Quad.b0 hquad, congrArg Quad.b1 hquad, congrArg Quad.b2 hquad, congrArg Quad.b3 hquad⟩

/-- A 4-byte write of the bytes that are there changes no byte. -/
theorem State.byte_writeQuad_readQuad {s : State} (h : Memory.wf s.buf = true) (addr p : BufAddr) :
    (s.writeQuad addr (s.readQuad addr)).byte p = s.byte p := by
  by_cases hp : p ∈ quadAddrs addr
  · obtain ⟨h0, h1, h2, h3⟩ := State.byte_writeQuad h addr (s.readQuad addr)
    rw [readQuad_eq] at h0 h1 h2 h3 ⊢
    rw [quadAddrs_eq] at hp
    simp only [List.mem_cons, List.not_mem_nil, or_false] at hp
    obtain rfl | rfl | rfl | rfl := hp
    · exact h0
    · exact h1
    · exact h2
    · exact h3
  · exact State.byte_writeQuad_of_not_mem s _ hp

/-! ### FROMB and FROMRB -/

/-- A construction from a sequence that is not of four bytes raises RangeError (R102, R103, R201). -/
theorem raises_of_fromBytes {i : Instr} {order : Quad → Word} {d : VReg} {addr : BufAddr} {len : Fin 16} {s : State}
    (h : exec i s = fromBytes order d addr len s) (hlen : len ≠ 4) : Raises .rangeError i s :=
  raises_of_fail (h.trans (if_neg hlen))

/-- A construction from four bytes completes, with the limbs that the bytes make in the order given (R102, R103). -/
theorem completes_of_fromBytes {i : Instr} {order : Quad → Word} {d : VReg} {addr : BufAddr} {s : State}
    {b0 b1 b2 b3 : Byte} (h : exec i s = fromBytes order d addr 4 s)
    (hbytes : order (s.readQuad addr) = Quad.forward ⟨b0, b1, b2, b3⟩) :
    Completes i s [d] [] [] fun t =>
      (t.getV d).hi = b0 ++ b1 ∧ (t.getV d).lo = b2 ++ b3 ∧ (t.getV d).ovf = 0 := by
  refine completes_of_setV (h.trans (fromBytes_four order d addr s)) ?_
  rw [State.getV_complete, State.getV_setV_same, hbytes, ofWord_forward]
  exact ⟨rfl, rfl, rfl⟩

theorem exec_fromb (d : VReg) (addr : BufAddr) (len : Fin 16) (s : State) :
    exec (.fromb d addr len) s = fromBytes Quad.forward d addr len s := rfl

theorem exec_fromrb (d : VReg) (addr : BufAddr) (len : Fin 16) (s : State) :
    exec (.fromrb d addr len) s = fromBytes (fun q => q.reverse.forward) d addr len s := rfl

/-- Settles O33: FROMB packs the bytes in the order of their addresses. -/
theorem frombResult : Obligations.FrombResult := by
  refine ⟨rowDecodes (.fromb 0 0 0), fun d addr len s => raises_of_fromBytes (exec_fromb d addr len s), fun d addr s => ?_⟩
  exact completes_of_fromBytes (exec_fromb d addr 4 s) (congrArg Quad.forward (readQuad_eq s addr))

/-- Settles O34: FROMRB packs them reversed. -/
theorem fromrbResult : Obligations.FromrbResult := by
  refine ⟨rowDecodes (.fromrb 0 0 0), fun d addr len s => raises_of_fromBytes (exec_fromrb d addr len s), fun d addr s => ?_⟩
  exact completes_of_fromBytes (exec_fromrb d addr 4 s) (congrArg Quad.forward (reverse_readQuad s addr))

/-! ### TOB and TORB -/

/-- Settles O35: the two pairs of bytes that the store leaves, in forward order, are the limbs of the value. -/
theorem tobResult : Obligations.TobResult := by
  refine ⟨rowDecodes (.tob 0 0), fun a addr s ⟨hbuf, _⟩ => ?_⟩
  obtain ⟨h0, h1, h2, h3⟩ := State.byte_writeQuad hbuf addr (s.getV a).quad
  refine completes_of_writeQuad rfl ⟨quadAddrs_eq addr, ?hi, ?lo⟩
  case hi => rw [State.byte_complete, State.byte_complete, h0, h1, quad_hi]
  case lo => rw [State.byte_complete, State.byte_complete, h2, h3, quad_lo]

/-- Settles O36: the store leaves the bytes in reverse order, so the limbs are its pairs read from the last byte to the first. -/
theorem torbResult : Obligations.TorbResult := by
  refine ⟨rowDecodes (.torb 0 0), fun a addr s ⟨hbuf, _⟩ => ?_⟩
  obtain ⟨h0, h1, h2, h3⟩ := State.byte_writeQuad hbuf addr (s.getV a).quad.reverse
  refine completes_of_writeQuad rfl ⟨quadAddrs_eq addr, ?hi, ?lo⟩
  case hi =>
    rw [State.byte_complete, State.byte_complete, h3, h2]
    exact quad_hi _
  case lo =>
    rw [State.byte_complete, State.byte_complete, h1, h0]
    exact quad_lo _

/-! ### Byte round trips -/

/-- A value made from four bytes and stored at their address, in the order `back` that undoes the construction's, leaves
every byte (R108). -/
theorem byte_of_construct_store {order : Quad → Word} {back : Quad → Quad}
    (hback : ∀ q, back (Value.ofWord (order q) noOvf).quad = q) {d : VReg} {addr : BufAddr} {s t u : State}
    (hs : Memory.wf s.buf = true) (hload : fromBytes order d addr 4 s = .next t)
    (hstore : done (t.writeQuad addr (back (t.getV d).quad)) = .next u) (p : BufAddr) : u.byte p = s.byte p := by
  rw [fromBytes_four] at hload
  obtain rfl := done_eq_next hload
  obtain rfl := done_eq_next hstore
  rw [State.getV_complete, State.getV_setV_same, hback]
  exact State.byte_writeQuad_readQuad hs addr p

/-- A value stored as the sequence `q` and made again from it, in an order that packs `q` to the value, has its limbs
(R108). -/
theorem limbs_of_store_construct {order : Quad → Word} {v : Value} {q : Quad} (hq : order q = v.quad.forward) {d : VReg}
    {addr : BufAddr} {s t u : State} (hs : Memory.wf s.buf = true) (hstore : done (s.writeQuad addr q) = .next t)
    (hload : fromBytes order d addr 4 t = .next u) : (u.getV d).hi = v.hi ∧ (u.getV d).lo = v.lo := by
  obtain rfl := done_eq_next hstore
  have hread : (s.writeQuad addr q).complete.readQuad addr = q := State.readQuad_writeQuad hs addr q
  rw [fromBytes_four, hread, hq, ofWord_forward_quad] at hload
  obtain rfl := done_eq_next hload
  rw [State.getV_complete, State.getV_setV_same]
  exact ⟨rfl, rfl⟩

/-- Settles O39: each order of bytes is undone by itself. -/
theorem byteRoundTrips : Obligations.ByteRoundTrips := by
  intro d a addr s t u ⟨hbuf, _⟩
  refine ⟨?fromb_tob, ?fromrb_torb, ?tob_fromb, ?torb_fromrb⟩
  case fromb_tob => exact byte_of_construct_store (order := Quad.forward) (back := id) (fun q => quad_ofWord_forward q _) hbuf
  case fromrb_torb =>
    exact byte_of_construct_store (order := fun q => q.reverse.forward) (back := Quad.reverse)
      (fun q => by rw [quad_ofWord_forward, Quad.reverse_reverse]) hbuf
  case tob_fromb => exact limbs_of_store_construct (order := Quad.forward) rfl hbuf
  case torb_fromrb =>
    exact limbs_of_store_construct (order := fun q => q.reverse.forward) (congrArg Quad.forward (Quad.reverse_reverse _)) hbuf

/-! ### TOI64 -/

/-- The upper half of the sign extension: two limbs, each the sign repeated (R107). -/
theorem signExtend_u32 (v : Value) : v.u32.signExtend 64 = (signLimb v ++ signLimb v) ++ v.u32 := by
  have hsign : v.u32.msb = v.hi.getLsbD 15 := BitVec.msb_append
  have hupper : signLimb v ++ signLimb v = if v.u32.msb then BitVec.allOnes 32 else 0#32 := by
    rw [hsign, signLimb]
    split <;> rfl
  rw [hupper]
  exact BitVec.signExtend_eq_append_of_le (by decide)

/-- The registers of a pair are two (R63). -/
theorem ne_pairReg (d : VReg) : d ≠ pairReg d := by
  revert d
  decide

theorem execToi64_of_even {d : VReg} (h : evenReg d = true) (a : VReg) (s : State) : execToi64 d a s =
    done ((s.setV d ⟨signLimb (s.getV a), signLimb (s.getV a), noOvf⟩).setV (pairReg d)
      ⟨(s.getV a).hi, (s.getV a).lo, noOvf⟩) :=
  if_pos h

theorem execToi64_of_odd {d : VReg} (h : evenReg d = false) (a : VReg) (s : State) : execToi64 d a s = fail .illegal s :=
  if_neg (ne_true_of_eq_false h)

/-- A command with a pair of V destinations completes. -/
theorem completes_of_setV_setV {i : Instr} {s : State} {d e : VReg} {v w : Value} {post : State → Prop}
    (h : exec i s = done ((s.setV d v).setV e w)) (hp : post ((s.setV d v).setV e w).complete) :
    Completes i s [d, e] [] [] post :=
  ⟨_, h, hp, frame_setV_setV s d e v w, statusCompleted_complete rfl⟩

/-- Settles O38: both writes of the pair use the source's old value, so the source may be in the pair. -/
theorem toi64Result : Obligations.Toi64Result := by
  refine ⟨rowDecodes (.toi64 0 0), fun d a s hodd => ?odd, fun d a s heven => ?even⟩
  case odd => exact raises_of_fail (execToi64_of_odd (beq_eq_false_iff_ne.mpr (by omega)) a s)
  case even =>
    refine completes_of_setV_setV (execToi64_of_even (beq_iff_eq.mpr heven) a s) ?_
    have hsecond : d + 1 = pairReg d := rfl
    rw [State.getV_complete, State.getV_complete, hsecond, State.getV_setV_same, State.getV_setV_of_ne _ _ (ne_pairReg d),
      State.getV_setV_same]
    exact ⟨(signExtend_u32 _).symm, rfl, rfl⟩

/-! ### Host integers -/

/-- Settles O32: a guarded write of the limbs of the host integer. -/
theorem fromintResult : Obligations.FromintResult := by
  refine ⟨rowDecodes (.fromint 0 0), fun d a s => guarded_of_withInt rfl fun hdone => completes_of_setV hdone ?_⟩
  rw [State.getV_complete, State.getV_setV_same]
  exact ⟨rfl, rfl, rfl⟩

/-- Settles O37: the logical value as a number is `hi * 2^16 + lo` (R21). -/
theorem tointResult : Obligations.TointResult := by
  refine ⟨rowDecodes (.toint 0 0), fun d a s => completes_of_setInt rfl ?_⟩
  rw [State.getS_complete, State.getS_setInt_same]
  exact ⟨Value.u32_toNat _, rfl⟩

/-- Settles O41: the logical value of the limbs of `n` is `n` (R10). -/
theorem hostIntegerRoundTrip : Obligations.HostIntegerRoundTrip := by
  intro d v a n s ha
  have hkind : (s.getS a).kind = true := congrArg Scalar.kind ha
  have hdata : (s.getS a).data = n := congrArg Scalar.data ha
  refine ⟨_, _, withInt_of_kind hkind _, rfl, ?_⟩
  rw [State.getS_complete, State.getS_setInt_same, State.getV_complete, State.getV_setV_same, Value.u32_ofWord, hdata]

end Sys2Proof.Machine
end

section
/-! PROOF. Arithmetic and the overflow accumulator (O42 to O49). Each datapath is tied once to arithmetic on logical values: the
adder and the subtractor limb by limb, the two multiplier loops by their invariants in the ring of integers modulo 2^32. Each
command is then the lemma for its shape with that fact. -/

namespace Sys2Proof.Machine

/-! ### Adder -/

/-- The limb adder loses nothing: the final carry stands above the 32 bits of the sum it writes (R120). -/
theorem add32_carry_add_sumValue_u32 (x y : Value) :
    (add32 x y).carry * 2 ^ 32 + (sumValue x y).u32.toNat = x.u32.toNat + y.u32.toNat := by
  simp only [Value.u32_toNat, sumValue, add32, BitVec.toNat_ofNat, Nat.shiftRight_eq_div_pow]
  omega

/-- So the written sum is the sum modulo 2^32 (R121). -/
theorem sumValue_u32 (x y : Value) : (sumValue x y).u32 = x.u32 + y.u32 := by
  apply BitVec.eq_of_toNat_eq
  rw [BitVec.toNat_add, ← add32_carry_add_sumValue_u32, Nat.mul_add_mod_self_right,
    Nat.mod_eq_of_lt (sumValue x y).u32.isLt]

/-- The final carry is 1 exactly when the sum leaves 32 bits (R120). -/
theorem add32_carry (x y : Value) : (add32 x y).carry = if 2 ^ 32 ≤ x.u32.toNat + y.u32.toNat then 1 else 0 := by
  have hsum := add32_carry_add_sumValue_u32 x y
  have hwritten := (sumValue x y).u32.isLt
  have hx := x.u32.isLt
  have hy := y.u32.isLt
  split <;> omega

/-- The value a sum writes, accumulator included (R121, R122). -/
theorem sumValue_is (x y : Value) : (sumValue x y).Is (x.u32 + y.u32)
    (x.ovf + y.ovf + if 2 ^ 32 ≤ x.u32.toNat + y.u32.toNat then 1 else 0) := by
  refine ⟨sumValue_u32 x y, ?_⟩
  simp only [sumValue, sumOvf, add32_carry]
  split <;> rfl

/-- Settles O42: the operands are read before the write, so the destination may be one of them. -/
theorem addResult : Obligations.AddResult := by
  refine ⟨rowDecodes (.add 0 0 0), fun d a b s => completes_of_setV rfl ?_⟩
  rw [State.getV_complete, State.getV_setV_same]
  exact sumValue_is (s.getV a) (s.getV b)

/-- Settles O43: the synthesized operand has the host integer's limbs and adds nothing to the accumulator. -/
theorem addhResult : Obligations.AddhResult := by
  refine ⟨rowDecodes (.addh 0 0 0), fun d a b s => guarded_of_withInt rfl fun hdone => completes_of_setV hdone ?_⟩
  rw [State.getV_complete, State.getV_setV_same]
  simpa using sumValue_is (s.getV a) (synthesized (s.getS b).data)

/-! ### Subtractor -/

/-- The limb subtractor's value: the difference modulo 2^32, the final borrow discarded (R123). -/
theorem sub32_is (x y : Value) : (sub32 x y).Is (x.u32 - y.u32) 0 := by
  refine ⟨BitVec.eq_of_toNat_eq ?_, rfl⟩
  rw [Value.u32_toNat, BitVec.toNat_sub, Value.u32_toNat, Value.u32_toNat]
  simp only [sub32, BitVec.toNat_ofInt]
  split <;> omega

/-- Settles O44: SUBH is SUB on the synthesized operand. -/
theorem subAndSubhResults : Obligations.SubAndSubhResults := by
  refine ⟨rowDecodes (.sub 0 0 0), rowDecodes (.subh 0 0 0), fun d a b s => completes_of_setV rfl ?sub,
    fun d a b s => guarded_of_withInt rfl fun hdone => completes_of_setV hdone ?subh⟩
  case sub =>
    rw [State.getV_complete, State.getV_setV_same]
    exact sub32_is (s.getV a) (s.getV b)
  case subh =>
    rw [State.getV_complete, State.getV_setV_same]
    simpa using sub32_is (s.getV a) (synthesized (s.getS b).data)

/-! ### Multiplier -/

/-- Masking by a multiplier bit multiplies by it (R126). -/
theorem and_mulMask (x n : Word) (i : Nat) : x &&& mulMask n i = x * ((n.toNat.testBit i).toNat : Word) := by
  rw [mulMask, ← BitVec.testBit_toNat]
  cases n.toNat.testBit i
  · simp
  · rw [if_pos rfl, BitVec.and_allOnes]
    simp

theorem shiftLeft_one_eq (x : Word) : x <<< 1 = 2 * x := by
  rw [BitVec.shiftLeft_eq_mul_twoPow, mul_comm]
  rfl

/-- The double-and-add loop's invariant: what is accumulated is doubled `k` times, and the multiplier's low `k` bits are used
(R126). -/
theorem mulLoop_eq (x n : Word) (k : Nat) (acc : Word) :
    mulLoop x n k acc = 2 ^ k * acc + x * ((n.toNat % 2 ^ k : Nat) : Word) := by
  induction k generalizing acc with
  | zero => simp [mulLoop, Nat.mod_one]
  | succ k ih =>
    rw [mulLoop, ih, and_mulMask, shiftLeft_one_eq, Nat.mod_pow_succ, ← Nat.toNat_testBit]
    push_cast
    ring

/-- The least-significant-first loop's invariant: from bit `i` on, `k` bits of the multiplier are used (R126, C2). -/
theorem mulLsbLoop_eq (n : Word) (k i : Nat) (shifted acc : Word) :
    mulLsbLoop n k i shifted acc = acc + shifted * ((n.toNat / 2 ^ i % 2 ^ k : Nat) : Word) := by
  induction k generalizing i shifted acc with
  | zero => simp [mulLsbLoop, Nat.mod_one]
  | succ k ih =>
    have hbits : n.toNat / 2 ^ i % 2 ^ (k + 1) = (n.toNat.testBit i).toNat + 2 * (n.toNat / 2 ^ (i + 1) % 2 ^ k) := by
      rw [pow_succ', Nat.mod_mul, Nat.toNat_testBit, Nat.div_div_eq_div_mul, ← pow_succ]
    rw [mulLsbLoop, ih, and_mulMask, shiftLeft_one_eq, hbits]
    push_cast
    ring

/-- The multiplier as a product with the low `k` bits of the multiplier (R126). -/
theorem mul32_eq (x n : Word) (k : Nat) : mul32 x n k = x * ((n.toNat % 2 ^ k : Nat) : Word) := by
  rw [mul32, mulLoop_eq, mul_zero, zero_add]

/-- Both forms of the multiplier give the same (R126, C2). -/
theorem mulLsb32_eq_mul32 (x n : Word) (k : Nat) : mulLsb32 x n k = mul32 x n k := by
  rw [mulLsb32, mulLsbLoop_eq, mul32_eq, pow_zero, Nat.div_one, zero_add]

/-- A word has no bits above its 32, so more iterations than 32 use no more of it (R8, D36). -/
theorem toNat_mod_two_pow_min (n : Word) (k : Nat) : n.toNat % 2 ^ min k 32 = n.toNat % 2 ^ k := by
  rcases le_total k 32 with h | h
  · rw [min_eq_left h]
  · rw [min_eq_right h, Nat.mod_eq_of_lt n.isLt, Nat.mod_eq_of_lt (n.isLt.trans_le (Nat.pow_le_pow_right two_pos h))]

/-- The multiplier's closed form (R126). -/
theorem mul32_toNat (x n : Word) (k : Nat) : (mul32 x n k).toNat = x.toNat * (n.toNat % 2 ^ min k 32) % 2 ^ 32 := by
  rw [mul32_eq, toNat_mod_two_pow_min, BitVec.toNat_mul]
  exact Nat.mul_mod_mod ..

/-- Settles O45: both loops are the same product. -/
theorem multiplierClosedForm : Obligations.MultiplierClosedForm :=
  fun x n k => ⟨mul32_toNat x n k, mulLsb32_eq_mul32 x n k⟩

/-! ### MUL and MULH -/

theorem mulValue_u32 (cfg : Config) (x n : Word) (w : Fin 64) : (mulValue cfg x n w).u32 = mul32 x n (iterations cfg w) :=
  Value.u32_ofWord _ noOvf

/-- Settles O46: the multiplier's closed form at the count K of the W field. -/
theorem mulResult : Obligations.MulResult := by
  refine ⟨rowDecodes (.mul 0 0 0 0), fun d a b w s => completes_of_setV rfl ?_⟩
  rw [State.getV_complete, State.getV_setV_same, mulValue_u32]
  exact ⟨mul32_toNat _ _ (iterations s.cfg w), rfl⟩

/-- Settles O47: the same multiplier, on the host integer. -/
theorem mulhResult : Obligations.MulhResult := by
  refine ⟨rowDecodes (.mulh 0 0 0 0), fun d a b w s => guarded_of_withInt rfl fun hdone => completes_of_setV hdone ?_⟩
  rw [State.getV_complete, State.getV_setV_same, mulValue_u32]
  exact ⟨mul32_toNat _ _ (iterations s.cfg w), rfl⟩

/-- With 32 iterations or more the whole multiplier is used (R130). -/
theorem mul32_eq_mul {k : Nat} (h : 32 ≤ k) (x n : Word) : mul32 x n k = x * n := by
  rw [mul32_eq, ← toNat_mod_two_pow_min, min_eq_right h, Nat.mod_eq_of_lt n.isLt, BitVec.natCast_eq_ofNat,
    BitVec.ofNat_toNat, BitVec.setWidth_eq]

/-- A zero operand, on either side, gives zero at every number of iterations (R131). -/
theorem mul32_eq_zero {x n : Word} (h : x = 0 ∨ n = 0) (k : Nat) : mul32 x n k = 0 := by
  rw [mul32_eq]
  obtain rfl | rfl := h
  · exact zero_mul _
  · simp

/-- A multiply on signed operands: modulo 2^32 the signed product is the unsigned one (R130, R131). -/
theorem mulValue_signed (cfg : Config) (x n : Word) (w : Fin 64) :
    (32 ≤ iterations cfg w → (mulValue cfg x n w).u32 = BitVec.ofInt 32 (x.toInt * n.toInt)) ∧
    (x = 0 ∨ n = 0 → (mulValue cfg x n w).u32 = 0) := by
  rw [mulValue_u32]
  refine ⟨fun hk => ?_, fun hzero => mul32_eq_zero hzero _⟩
  rw [mul32_eq_mul hk, BitVec.ofInt_mul, BitVec.ofInt_toInt, BitVec.ofInt_toInt]

/-- Settles O48: both commands write the multiplier's value. -/
theorem mulAtEverySign : Obligations.MulAtEverySign := by
  refine ⟨fun d a b w s t hexec => ?mul, fun d a b w s t hkind hexec => ?mulh⟩
  case mul =>
    obtain rfl := done_eq_next hexec
    rw [State.getV_complete, State.getV_setV_same]
    exact mulValue_signed s.cfg _ _ w
  case mulh =>
    obtain rfl := done_eq_next ((withInt_of_kind hkind _).symm.trans hexec)
    rw [State.getV_complete, State.getV_setV_same]
    exact mulValue_signed s.cfg _ _ w

/-! ### RDOVF -/

/-- Settles O49: the accumulator becomes an integer of kind 1. -/
theorem rdovfResult : Obligations.RdovfResult := by
  refine ⟨rowDecodes (.rdovf 0 0), fun d a s => completes_of_setInt rfl ?_⟩
  rw [State.getS_complete, State.getS_setInt_same]

end Sys2Proof.Machine
end

section
/-! PROOF. Bitwise operations (O50, O51). No operator carries between limbs, so on a concatenation it is the operator on each
limb. MASKH is AND with the synthesized operand, whose `ovf` of 0 clears the accumulator (D4). -/

namespace Sys2Proof.Machine

/-! ### Operators on limbs and on logical values -/

/-- The value AND writes has the AND of the logical values and of the accumulators (R140, R144). -/
theorem and_limbs_is (x y : Value) :
    Value.Is ⟨x.hi &&& y.hi, x.lo &&& y.lo, andOvf x.ovf y.ovf⟩ (x.u32 &&& y.u32) (x.ovf &&& y.ovf) :=
  ⟨BitVec.and_append.symm, rfl⟩

/-- The value OR writes has the OR of the logical values and of the accumulators (R141, R144). -/
theorem or_limbs_is (x y : Value) :
    Value.Is ⟨x.hi ||| y.hi, x.lo ||| y.lo, orOvf x.ovf y.ovf⟩ (x.u32 ||| y.u32) (x.ovf ||| y.ovf) :=
  ⟨BitVec.or_append.symm, rfl⟩

/-- The value XOR writes has the XOR of the logical values and of the accumulators (R142, R144). -/
theorem xor_limbs_is (x y : Value) :
    Value.Is ⟨x.hi ^^^ y.hi, x.lo ^^^ y.lo, xorOvf x.ovf y.ovf⟩ (x.u32 ^^^ y.u32) (x.ovf ^^^ y.ovf) :=
  ⟨BitVec.xor_append.symm, rfl⟩

/-- The value MASKH writes is the AND with the synthesized operand but for the accumulator, which it clears (R143). -/
theorem mask_limbs_is (x : Value) (m : Word) :
    Value.Is ⟨x.hi &&& hiLimb m, x.lo &&& loLimb m, noOvf⟩ (x.u32 &&& m) 0 := by
  have hand : (x.hi &&& hiLimb m) ++ (x.lo &&& loLimb m) = x.u32 &&& (synthesized m).u32 :=
    (and_limbs_is x (synthesized m)).1
  rw [synthesized_u32] at hand
  exact ⟨hand, rfl⟩

/-! ### The commands -/

/-- A command that writes one value register completes with that value's logical value and accumulator in it (R11). -/
theorem completes_is_of_setV {i : Instr} {s : State} {d : VReg} {v : Value} {x o : Word}
    (h : exec i s = done (s.setV d v)) (hv : v.Is x o) : Completes i s [d] [] [] fun t => (t.getV d).Is x o := by
  refine completes_of_setV h ?_
  rwa [State.getV_complete, State.getV_setV_same]

/-- Settles O50: each command writes the value of its operator; the operands are read before the write, so the destination may
be one of them. -/
theorem bitwiseResults : Obligations.BitwiseResults :=
  ⟨rowDecodes (.and 0 0 0), rowDecodes (.or 0 0 0), rowDecodes (.xor 0 0 0), fun _ a b s =>
    ⟨completes_is_of_setV rfl (and_limbs_is (s.getV a) (s.getV b)),
      completes_is_of_setV rfl (or_limbs_is (s.getV a) (s.getV b)),
      completes_is_of_setV rfl (xor_limbs_is (s.getV a) (s.getV b))⟩⟩

/-- Settles O51: a guarded write of the value masked with the host integer. -/
theorem maskhResult : Obligations.MaskhResult :=
  ⟨rowDecodes (.maskh 0 0 0), fun _ a b s => guarded_of_withInt rfl fun hdone =>
    completes_is_of_setV hdone (mask_limbs_is (s.getV a) (s.getS b).data)⟩

end Sys2Proof.Machine
end

section
/-! PROOF. Rotate and shift (O52 to O57). The limb-level rotation is tied once to a rotation of the logical value, by whether the
amount crosses into the other limb; a shift is tied to multiplication and division by a power of two. Each command is then the
lemma for its shape with that fact. -/

namespace Sys2Proof.Machine

/-! ### Rotation of words -/

/-- Left by the rest of the width is right (R152). -/
theorem rotateLeft_sub {w k : Nat} (x : BitVec w) (hk : k < w) : x.rotateLeft (w - k) = x.rotateRight k := by
  rw [BitVec.rotateLeft_def, BitVec.rotateRight_def, Nat.mod_eq_of_lt hk]
  obtain rfl | hpos := Nat.eq_zero_or_pos k
  · have hgone : x >>> w = 0 := BitVec.ushiftRight_eq_zero le_rfl
    simp [hgone]
  · have hlt : w - k < w := by omega
    rw [Nat.mod_eq_of_lt hlt, Nat.sub_sub_self hk.le, BitVec.or_comm]

/-- A left rotation undoes a right rotation by the same amount. -/
theorem rotateLeft_rotateRight {w k : Nat} (x : BitVec w) (hk : k < w) : (x.rotateRight k).rotateLeft k = x := by
  apply BitVec.eq_of_getElem_eq
  intro i hi
  simp only [BitVec.getElem_rotateLeft, BitVec.getElem_rotateRight, Nat.mod_eq_of_lt hk]
  grind

/-! ### The limb-level rotation -/

/-- A rotation's amount modulo 32 is less than the width, at either sign (R151). -/
theorem toNat_emod_thirtyTwo_lt (c : Int) : (c % 32).toNat < 32 := by omega

/-- The sub-limb shift rotates the two limbs together, the bits each limb loses entering the other (R151). -/
theorem rotateLeft_append (hi lo : Limb) {s : Nat} (hs : s < 16) :
    (hi ++ lo).rotateLeft s = ((hi <<< s) ||| (lo >>> (16 - s))) ++ ((lo <<< s) ||| (hi >>> (16 - s))) := by
  apply BitVec.eq_of_getLsbD_eq
  intro i _
  simp only [BitVec.getLsbD_rotateLeft, BitVec.getLsbD_append, BitVec.getLsbD_or, BitVec.getLsbD_shiftLeft,
    BitVec.getLsbD_ushiftRight]
  grind

/-- An amount of 16 or more first swaps the limbs (R151). -/
theorem rotateLeft_sixteen_add_append (hi lo : Limb) {s : Nat} (hs : s < 16) :
    (hi ++ lo).rotateLeft (16 + s) = (lo ++ hi).rotateLeft s := by
  apply BitVec.eq_of_getLsbD_eq
  intro i _
  simp only [BitVec.getLsbD_rotateLeft, BitVec.getLsbD_append]
  grind

/-- `rotl32` rotates the logical value left by the amount modulo 32 (R151). -/
theorem rotl32_eq_rotateLeft (v : Value) (c : Int) : rotl32 v c = v.u32.rotateLeft (c % 32).toNat := by
  have hk := toNat_emod_thirtyTwo_lt c
  have hsub : (c % 32).toNat &&& 15 = (c % 32).toNat % 16 := Nat.and_two_pow_sub_one_eq_mod _ 4
  have hswap : (c % 32).toNat >>> 4 &&& 1 = (c % 32).toNat / 16 := by
    rw [Nat.and_one_is_mod, Nat.shiftRight_eq_div_pow]
    omega
  simp only [rotl32, hsub, hswap, Value.u32]
  generalize (c % 32).toNat = k at hk
  obtain hlow | hhigh := Nat.lt_or_ge k 16
  · have hdiv : k / 16 = 0 := by omega
    rw [rotateLeft_append _ _ hlow, hdiv, Nat.mod_eq_of_lt hlow]
    rfl
  · obtain ⟨s, rfl⟩ := Nat.exists_eq_add_of_le hhigh
    have hs : s < 16 := by omega
    have hdiv : (16 + s) / 16 = 1 := by omega
    have hmod : (16 + s) % 16 = s := by omega
    rw [rotateLeft_sixteen_add_append _ _ hs, rotateLeft_append _ _ hs, hdiv, hmod]
    rfl

/-- `rotr32` rotates the logical value right by the amount modulo 32 (R152). -/
theorem rotr32_eq_rotateRight (v : Value) (c : Int) : rotr32 v c = v.u32.rotateRight (c % 32).toNat := by
  have hk := toNat_emod_thirtyTwo_lt c
  have hamount : ((32 - c % 32) % 32 % 32).toNat = (32 - (c % 32).toNat) % 32 := by omega
  rw [rotr32, rotl32_eq_rotateLeft, hamount, BitVec.rotateLeft_mod_eq_rotateLeft, rotateLeft_sub _ hk]

/-- Settles O52: the closed form is the definition of a rotation by less than the width. -/
theorem rotateLeftClosedForm : Obligations.RotateLeftClosedForm := by
  intro v c
  rw [rotl32_eq_rotateLeft, BitVec.rotateLeft_def, Nat.mod_eq_of_lt (toNat_emod_thirtyTwo_lt c)]

/-- Settles O53: `rotr32` is a right rotation, which a left rotation by the same amount undoes. -/
theorem rotateRightUndoneByRotateLeft : Obligations.RotateRightUndoneByRotateLeft := by
  intro v c
  have hk := toNat_emod_thirtyTwo_lt c
  refine ⟨rfl, ?closed, fun w hw => ?undone⟩
  case closed => rw [rotr32_eq_rotateRight, BitVec.rotateRight_def, Nat.mod_eq_of_lt hk]
  case undone => rw [rotl32_eq_rotateLeft, hw, rotr32_eq_rotateRight, rotateLeft_rotateRight _ hk]

/-! ### Shifts -/

/-- A left shift as a number: from 32 on the factor is a multiple of 2^32 (R153). -/
theorem shlBy_toNat (x : Word) {c : Int} (hc : 0 ≤ c) :
    (shlBy x c.toNat).toNat = x.toNat * 2 ^ (c % 64).toNat % 2 ^ 32 := by
  have hamount : (c % 64).toNat = c.toNat % 64 := Int.toNat_emod hc (by decide)
  rw [shlBy, hamount]
  split
  next hlarge => exact (Nat.mod_eq_zero_of_dvd ((Nat.pow_dvd_pow 2 hlarge).mul_left x.toNat)).symm
  next => rw [BitVec.toNat_shiftLeft, Nat.shiftLeft_eq]

/-- A right shift as a number: from 32 on the divisor is larger than every word (R154). -/
theorem shrBy_toNat (x : Word) {c : Int} (hc : 0 ≤ c) : (shrBy x c.toNat).toNat = x.toNat / 2 ^ (c % 64).toNat := by
  have hamount : (c % 64).toNat = c.toNat % 64 := Int.toNat_emod hc (by decide)
  rw [shrBy, hamount]
  split
  next hlarge => exact (Nat.div_eq_of_lt (x.isLt.trans_le (Nat.pow_le_pow_right two_pos hlarge))).symm
  next => rw [BitVec.toNat_ushiftRight, Nat.shiftRight_eq_div_pow]

/-- The sign chooses the direction, and only then does the size count modulo 64 (R153). -/
theorem shl32_toNat (x : Word) (c : Int) : (shl32 x c).toNat =
    if 0 ≤ c then x.toNat * 2 ^ (c % 64).toNat % 2 ^ 32 else x.toNat / 2 ^ (-c % 64).toNat := by
  by_cases hc : 0 ≤ c
  · rw [shl32, if_neg hc.not_gt, if_pos hc, shlBy_toNat x hc]
  · rw [shl32, if_pos (not_le.mp hc), if_neg hc, shrBy_toNat x (by omega)]

/-- The same with the directions exchanged (R154). -/
theorem shr32_toNat (x : Word) (c : Int) : (shr32 x c).toNat =
    if 0 ≤ c then x.toNat / 2 ^ (c % 64).toNat else x.toNat * 2 ^ (-c % 64).toNat % 2 ^ 32 := by
  by_cases hc : 0 ≤ c
  · rw [shr32, if_neg hc.not_gt, if_pos hc, shrBy_toNat x hc]
  · rw [shr32, if_pos (not_le.mp hc), if_neg hc, shlBy_toNat x (by omega)]

/-! ### The commands -/

/-- The value made of a word, and of no accumulator, has that logical value (R10, R22). -/
theorem ofWord_noOvf_is {x y : Word} (h : x = y) : (Value.ofWord x noOvf).Is y 0 :=
  ⟨(Value.u32_ofWord x noOvf).trans h, rfl⟩

/-- A command that writes one value register completes with that value's logical value, as a number, and accumulator in it
(R11). -/
theorem completes_toNat_of_setV {i : Instr} {s : State} {d : VReg} {x : Word} {n : Nat}
    (h : exec i s = done (s.setV d (Value.ofWord x noOvf))) (hx : x.toNat = n) :
    Completes i s [d] [] [] fun t => (t.getV d).u32.toNat = n ∧ (t.getV d).ovf = 0 := by
  refine completes_of_setV h ?_
  rw [State.getV_complete, State.getV_setV_same, Value.u32_ofWord]
  exact ⟨hx, rfl⟩

/-- Settles O54: guarded writes of the two rotations by the host integer as a signed number. -/
theorem rotateByRegisterResults : Obligations.RotateByRegisterResults :=
  ⟨rowDecodes (.rotl 0 0 0), rowDecodes (.rotr 0 0 0), fun _ a _ s =>
    ⟨guarded_of_withInt rfl fun hdone => completes_is_of_setV hdone (ofWord_noOvf_is (rotl32_eq_rotateLeft (s.getV a) _)),
      guarded_of_withInt rfl fun hdone =>
        completes_is_of_setV hdone (ofWord_noOvf_is (rotr32_eq_rotateRight (s.getV a) _))⟩⟩

/-- Settles O55: the two rotations by the command's own amount. -/
theorem rotateByImmediateResults : Obligations.RotateByImmediateResults :=
  ⟨rowDecodes (.rotli 0 0 0), rowDecodes (.rotri 0 0 0), fun _ a c s =>
    ⟨completes_is_of_setV rfl (ofWord_noOvf_is (rotl32_eq_rotateLeft (s.getV a) c)),
      completes_is_of_setV rfl (ofWord_noOvf_is (rotr32_eq_rotateRight (s.getV a) c))⟩⟩

/-- Settles O56: guarded writes of the two shifts by the host integer as a signed number. -/
theorem shiftByRegisterResults : Obligations.ShiftByRegisterResults :=
  ⟨rowDecodes (.shl 0 0 0), rowDecodes (.shr 0 0 0), fun _ a _ s =>
    ⟨guarded_of_withInt rfl fun hdone => completes_toNat_of_setV hdone (shl32_toNat (s.getV a).u32 _),
      guarded_of_withInt rfl fun hdone => completes_toNat_of_setV hdone (shr32_toNat (s.getV a).u32 _)⟩⟩

/-- Settles O57: the two shifts by the command's own amount. -/
theorem shiftByImmediateResults : Obligations.ShiftByImmediateResults :=
  ⟨rowDecodes (.shli 0 0 0), rowDecodes (.shri 0 0 0), fun _ a c s =>
    ⟨completes_toNat_of_setV rfl (shl32_toNat (s.getV a).u32 c),
      completes_toNat_of_setV rfl (shr32_toNat (s.getV a).u32 c)⟩⟩

end Sys2Proof.Machine
end

section
/-! PROOF. Comparison (O58 to O60). The comparator, limb by limb, is tied once to the unsigned order of the logical value and the
host integer: the order of two numbers is the order of their upper halves, and of their lower halves where the upper ones are
equal. CMPH, GTH and LTH are then one shape of command, and of their results exactly one reports the order. -/

namespace Sys2Proof.Machine

/-! ### The unsigned order limb by limb -/

/-- A value has a word as its logical value when it has the limbs of that word (R10). -/
theorem u32_eq_iff_limbs (v : Value) (n : Word) : v.u32 = n ↔ v.hi = hiLimb n ∧ v.lo = loLimb n := by
  constructor
  · rintro rfl
    exact ⟨(hiLimb_u32 v).symm, (loLimb_u32 v).symm⟩
  · rintro ⟨hhi, hlo⟩
    refine BitVec.eq_of_toNat_eq ?_
    rw [Value.u32_toNat, hhi, hlo, hiLimb_toNat, loLimb_toNat, Nat.div_add_mod']

/-- The unsigned order is lexicographic in the limbs, the most significant first (R170). -/
theorem toNat_lt_u32_iff_limbs (v : Value) (n : Word) :
    n.toNat < v.u32.toNat ↔ hiLimb n < v.hi ∨ (loLimb n < v.lo ∧ v.hi = hiLimb n) := by
  rw [Value.u32_toNat, BitVec.lt_def, BitVec.lt_def, ← BitVec.toNat_inj, hiLimb_toNat, loLimb_toNat]
  have hlo : v.lo.toNat < 65536 := v.lo.isLt
  omega

/-- Exactly one of greater, less and equal holds in the unsigned order (R174). -/
theorem unsigned_trichotomy (x n : Word) :
    (n.toNat < x.toNat ∧ ¬x.toNat < n.toNat ∧ x ≠ n) ∨ (¬n.toNat < x.toNat ∧ x.toNat < n.toNat ∧ x ≠ n) ∨
      (¬n.toNat < x.toNat ∧ ¬x.toNat < n.toNat ∧ x = n) := by
  rw [ne_eq, ← BitVec.toNat_inj]
  omega

/-! ### Comparator -/

/-- The comparator's flags are the unsigned order of the logical value and the host integer (R170). -/
theorem cmp32_eq (v : Value) (n : Word) : cmp32 v n = ⟨decide (n.toNat < v.u32.toNat), decide (v.u32 = n)⟩ := by
  simp [cmp32, CmpFlags.limb, toNat_lt_u32_iff_limbs, u32_eq_iff_limbs, Bool.beq_eq_decide_eq]

/-- "Less" is what is neither greater nor equal (R170). -/
theorem cmp32_lt (v : Value) (n : Word) : (cmp32 v n).lt = decide (v.u32.toNat < n.toNat) := by
  rw [cmp32_eq, CmpFlags.lt]
  obtain ⟨hgt, hlt, -⟩ | ⟨hgt, hlt, hne⟩ | ⟨-, -, heq⟩ := unsigned_trichotomy v.u32 n
  · simp [hgt, hlt]
  · simp [hgt, hlt, hne]
  · simp [heq]

/-- A decided proposition as the integer 1 or 0 (R172, R173). -/
theorem flagWord_decide (p : Prop) [Decidable p] : flagWord (decide p) = if p then 1 else 0 := by
  simp [flagWord]

theorem flagWord_cmp32_gt (v : Value) (n : Word) : flagWord (cmp32 v n).gt = if n.toNat < v.u32.toNat then 1 else 0 := by
  rw [cmp32_eq, flagWord_decide]

theorem flagWord_cmp32_lt (v : Value) (n : Word) : flagWord (cmp32 v n).lt = if v.u32.toNat < n.toNat then 1 else 0 := by
  rw [cmp32_lt, flagWord_decide]

/-- The difference of the two flags is -1, 0 or +1 in the unsigned order (R171). -/
theorem cmp32_order (v : Value) (n : Word) :
    (cmp32 v n).order = if v.u32.toNat < n.toNat then 0xFFFFFFFF else if v.u32 = n then 0 else 1 := by
  rw [CmpFlags.order, cmp32_lt, cmp32_eq]
  obtain ⟨hgt, hlt, hne⟩ | ⟨hgt, hlt, -⟩ | ⟨-, -, heq⟩ := unsigned_trichotomy v.u32 n
  · simp [hgt, hlt, hne]
  · simp [hgt, hlt]
  · simp [heq]

/-! ### The commands -/

/-- A command that writes one host integer completes with that integer in it, with kind 1 (R11). -/
theorem completes_int_of_setInt {i : Instr} {s : State} {d : SReg} {x y : Word} (h : exec i s = done (s.setInt d x))
    (hx : x = y) : Completes i s [] [d] [] fun t => (t.getS d).kind = true ∧ (t.getS d).data = y := by
  refine completes_of_setInt h ?_
  rw [State.getS_complete, State.getS_setInt_same]
  exact ⟨rfl, hx⟩

/-- Settles O58: a guarded write of the difference of the comparator's flags. -/
theorem cmphResult : Obligations.CmphResult :=
  ⟨rowDecodes (.cmph 0 0 0), fun _ a _ s =>
    guarded_of_withInt rfl fun hdone => completes_int_of_setInt hdone (cmp32_order (s.getV a) _)⟩

/-- Settles O59: guarded writes of two of the comparator's flags. -/
theorem gthAndLthResults : Obligations.GthAndLthResults :=
  ⟨rowDecodes (.gth 0 0 0), rowDecodes (.lth 0 0 0), fun _ a _ s =>
    ⟨guarded_of_withInt rfl fun hdone => completes_int_of_setInt hdone (flagWord_cmp32_gt (s.getV a) _),
      guarded_of_withInt rfl fun hdone => completes_int_of_setInt hdone (flagWord_cmp32_lt (s.getV a) _)⟩⟩

/-! ### Exactly one of the three -/

/-- What holds of the state a command completes in holds of the state it answers. -/
theorem Completes.post_of_exec {i : Instr} {s t : State} {vs : List VReg} {ss : List SReg} {stored : List BufAddr}
    {post : State → Prop} (h : Completes i s vs ss stored post) (ht : exec i s = .next t) : post t := by
  obtain ⟨u, hu, hpost, -, -⟩ := h
  cases hu.symm.trans ht
  exact hpost

theorem ite_one_zero_eq_one_iff (p : Prop) [Decidable p] : (if p then 1 else 0 : Word) = 1 ↔ p := by
  split <;> simp [*]

/-- The comparison result is zero only for equal operands (R171). -/
theorem ite_order_eq_zero_iff (x n : Word) :
    (if x.toNat < n.toNat then 0xFFFFFFFF else if x = n then 0 else 1 : Word) = 0 ↔ x = n := by
  obtain ⟨-, hlt, hne⟩ | ⟨-, hlt, hne⟩ | ⟨-, -, heq⟩ := unsigned_trichotomy x n
  · simp [hlt, hne]
  · simp [hlt, hne]
  · simp [heq]

/-- Settles O60: the three results are the three cases of the unsigned order, which exclude each other; the comparator reads the
limbs only. -/
theorem comparatorTotality : Obligations.ComparatorTotality := by
  refine ⟨fun d a b s g l c hkind hg hl hc => ?order, fun v v' n hhi hlo => ?limbs⟩
  case limbs => exact SameLimbs.apply ⟨hhi, hlo⟩ (ignoresOvf_cmp32 n)
  case order =>
    obtain ⟨-, -, hflags⟩ := gthAndLthResults
    obtain ⟨⟨-, hgth⟩, ⟨-, hlth⟩⟩ := hflags d a b s
    obtain ⟨-, hcmph⟩ := cmphResult.2 d a b s
    rw [((hgth hkind).post_of_exec hg).2, ((hlth hkind).post_of_exec hl).2, ((hcmph hkind).post_of_exec hc).2]
    simpa only [ne_eq, ite_one_zero_eq_one_iff, ite_order_eq_zero_iff, iff_self, true_and] using
      unsigned_trichotomy (s.getV a).u32 (s.getS b).data

end Sys2Proof.Machine
end

section
/-! PROOF. Errors (O25 to O28) and the idle step (O11). How a command changes STATUS is said once, in `issue_status`; which
outcome it ends with is read off what it reads: a host integer, a sequence length, or neither. -/

namespace Sys2Proof.Machine

/-! ### The idle unit -/

/-- Settles O11: with nothing pending the step has nothing to serve. -/
theorem idleHoldsAllState : Obligations.IdleHoldsAllState :=
  fun _ hp => step_nil hp

/-! ### How a command changes STATUS -/

/-- The writes to a command's destinations leave STATUS to the end of the command (R205). -/
theorem Written.status {s t : State} {vs : List VReg} {ss : List SReg} {stored : List BufAddr}
    (h : Written s vs ss stored t) : t.status = s.status := by
  cases h with
  | value d v => exact State.setV_status s d v
  | pair d e v w => rw [State.setV_status, State.setV_status]
  | int d x => exact State.setInt_status s d x
  | bytes addr q => exact State.writeQuad_status s addr q

/-- The command of a word records success, or it raises one error and does nothing else (R204, R205). -/
theorem issue_status {w : Word} {s t : State} (h : issue w s = .next t) :
    StatusCompleted s t ∨ ∃ e, t = s.raise e := by
  obtain ⟨i, -, hi⟩ | ⟨-, -, rfl⟩ := issue_cases h
  · obtain ⟨u, hw, rfl⟩ | ⟨e, rfl⟩ := exec_cases hi
    · exact .inl (statusCompleted_complete hw.status)
    · exact .inr ⟨e, rfl⟩
  · exact .inr ⟨.illegal, rfl⟩

/-- Settles O25: a command that did not record success did nothing but raise its error. -/
theorem errorsWriteOnlyStatus : Obligations.ErrorsWriteOnlyStatus := by
  intro w s t h hlast
  obtain hcompleted | ⟨e, rfl⟩ := issue_status h
  · exact absurd hcompleted.last hlast
  · exact ⟨onlyStatusChanged_raise s e, e, statusRaised_raise s e⟩

/-! ### SEEN bits -/

/-- Every SEEN bit that is 1 in the first STATUS is 1 in the second (R205). -/
structure SeenKept (st st' : Status) : Prop where
  rangeSeen : st.rangeSeen = true → st'.rangeSeen = true
  typeSeen : st.typeSeen = true → st'.typeSeen = true
  illegalSeen : st.illegalSeen = true → st'.illegalSeen = true

theorem SeenKept.refl (st : Status) : SeenKept st st := ⟨id, id, id⟩

theorem SeenKept.of_eq {st st' : Status} (h : st' = st) : SeenKept st st' := h ▸ .refl st

theorem SeenKept.of_completed {s t : State} (h : StatusCompleted s t) : SeenKept s.status t.status :=
  ⟨h.rangeSeen.trans, h.typeSeen.trans, h.illegalSeen.trans⟩

/-- An error sets its own SEEN bit and clears none (R204). -/
theorem SeenKept.onError (st : Status) (e : ErrorKind) : SeenKept st (st.onError e) := by
  constructor <;> (intro hseen; simp [Status.onError, hseen])

theorem issue_seenKept {w : Word} {s t : State} (h : issue w s = .next t) : SeenKept s.status t.status := by
  obtain hcompleted | ⟨e, rfl⟩ := issue_status h
  · exact .of_completed hcompleted
  · exact .onError s.status e

/-- Of the rows of the host map only STATUS lets a write clear a SEEN bit (R31, R49). -/
theorem hostWrite_seenKept {p : Port} {data : Word} {s t : State} (hp : p ≠ .status) (h : hostWrite p data s = .next t) :
    SeenKept s.status t.status := by
  obtain ⟨a, -, rfl⟩ | ⟨i, -, rfl⟩ | ⟨-, rfl⟩ | ⟨hstatus, -⟩ | ⟨-, hissue⟩ | ⟨-, rfl⟩ := hostWrite_cases h
  · exact .of_eq (State.setByte_status s a _)
  · exact .of_eq (State.setInt_status s i data)
  · exact .of_eq (State.setKinds_status s data)
  · exact absurd hstatus hp
  · exact issue_seenKept hissue
  · exact .refl _

/-- Serving an input that is neither a host write to STATUS nor a reset keeps the SEEN bits (R205). -/
theorem serve_seenKept {e : HostEvent} {s t : State} (hwrite : ∀ w, e ≠ .write 0x144 32 w) (hreset : e ≠ .reset)
    (hpower : ∀ o, e ≠ .powerOn o) (h : serve e s = .next t) : SeenKept s.status t.status := by
  obtain ⟨addr, width, -, rfl⟩ | ⟨addr, width, data, rfl, hw⟩ | ⟨rfl | ⟨o, rfl⟩, -⟩ := serve_cases h
  · exact .of_eq (State.returnRead_status s _)
  · refine hostWrite_seenKept (fun hport => ?_) hw
    obtain ⟨rfl, rfl⟩ := hostPort_eq_status_iff.mp hport
    exact hwrite data rfl
  · exact absurd rfl hreset
  · exact absurd rfl (hpower o)

/-- Settles O26: an error never records OK, so a command that ends with OK has completed; and of all inputs only a host write to
STATUS and a reset can clear a SEEN bit. -/
theorem seenBitsAreSticky : Obligations.SeenBitsAreSticky := by
  refine ⟨fun w s t h hlast => ?command, fun s t h hwrite hreset hpower => ?step⟩
  case command =>
    obtain hcompleted | ⟨e, rfl⟩ := issue_status h
    · exact hcompleted
    · exact absurd hlast e.toLast_ne_ok
  case step =>
    have hkept : SeenKept s.status t.status := by
      obtain ⟨-, rfl⟩ | ⟨e, rest, hp, he⟩ := step_cases h
      · exact .refl _
      · rw [hp] at hwrite hreset hpower
        exact serve_seenKept (s := { s with pending := rest }) (fun w hw => hwrite w rest (hw ▸ rfl))
          (fun hr => hreset rest (hr ▸ rfl)) (fun o ho => hpower o rest (ho ▸ rfl)) he
    exact ⟨hkept.rangeSeen, hkept.typeSeen, hkept.illegalSeen⟩

/-! ### Which outcome a command ends with -/

/-- The commands with a sequence length are FROMB and FROMRB (R201). -/
theorem seqLen_eq_some_iff {i : Instr} {len : Fin 16} :
    i.seqLen = some len ↔ ∃ d addr, i = .fromb d addr len ∨ i = .fromrb d addr len := by
  constructor
  · intro h
    cases i with
    | fromb d addr _ => cases h; exact ⟨d, addr, .inl rfl⟩
    | fromrb d addr _ => cases h; exact ⟨d, addr, .inr rfl⟩
    | _ => cases h
  · rintro ⟨d, addr, rfl | rfl⟩ <;> rfl

/-- No command reads both a host integer and a byte sequence (R200). -/
theorem seqLen_eq_none_of_hostInt {i : Instr} {r : SReg} (h : i.hostInt = some r) : i.seqLen = none := by
  cases i <;> cases h <;> rfl

/-- A command with a sequence length is a construction from bytes (R102, R103). -/
theorem exec_of_seqLen {i : Instr} {len : Fin 16} (h : i.seqLen = some len) (s : State) :
    ∃ order d addr, exec i s = fromBytes order d addr len s := by
  obtain ⟨d, addr, rfl | rfl⟩ := seqLen_eq_some_iff.mp h
  · exact ⟨_, d, addr, exec_fromb d addr len s⟩
  · exact ⟨_, d, addr, exec_fromrb d addr len s⟩

/-- A command that reads neither a host integer nor a byte sequence completes; TOI64 does because its destination is even
(R68, R206, R207). -/
theorem exec_eq_done {i : Instr} (hwf : i.WellFormed) (hint : i.hostInt = none) (hlen : i.seqLen = none) (s : State) :
    ∃ u, exec i s = done u := by
  cases i with
  | fromint _ _ | addh _ _ _ | subh _ _ _ | mulh _ _ _ _ | maskh _ _ _ => cases hint
  | rotl _ _ _ | rotr _ _ _ | shl _ _ _ | shr _ _ _ | cmph _ _ _ | gth _ _ _ | lth _ _ _ => cases hint
  | fromb _ _ _ | fromrb _ _ _ => cases hlen
  | toi64 d a => exact ⟨_, execToi64_of_even hwf a s⟩
  | tob _ _ | torb _ _ | toint _ _ | add _ _ _ | sub _ _ _ | mul _ _ _ _ | rdovf _ _ => exact ⟨_, rfl⟩
  | and _ _ _ | or _ _ _ | xor _ _ _ | rotli _ _ _ | rotri _ _ _ | shli _ _ _ | shri _ _ _ => exact ⟨_, rfl⟩

/-- The outcome of a command that reads a host integer is that integer's kind (R202). -/
theorem last_of_hostInt {i : Instr} {r : SReg} {s t : State} (hint : i.hostInt = some r) (h : exec i s = .next t) :
    t.status.last = if (s.getS r).kind then .ok else .typeError := by
  obtain ⟨effect, he⟩ := exec_of_hostInt hint s
  obtain ⟨hk, rfl⟩ | ⟨hk, rfl⟩ := withInt_cases (he.symm.trans h) <;> rw [hk] <;> rfl

/-- The outcome of a command that reads a byte sequence is that of its length (R201). -/
theorem last_of_seqLen {i : Instr} {len : Fin 16} {s t : State} (hlen : i.seqLen = some len) (h : exec i s = .next t) :
    t.status.last = if len = 4 then .ok else .rangeError := by
  obtain ⟨order, d, addr, he⟩ := exec_of_seqLen hlen s
  obtain ⟨hl, rfl⟩ | ⟨hl, rfl⟩ := fromBytes_cases (he.symm.trans h)
  · rw [if_pos hl]; rfl
  · rw [if_neg hl]; rfl

/-- The three outcomes of a well-formed command: RangeError by the length it is given, TypeError by the kind of the host integer
it reads, and else OK (R201, R202, R206, R207). -/
theorem exec_outcome {i : Instr} {s t : State} (hwf : i.WellFormed) (h : exec i s = .next t) :
    (t.status.last = .rangeError ↔ ∃ len, i.seqLen = some len ∧ len ≠ 4) ∧
    (t.status.last = .typeError ↔ ∃ r, i.hostInt = some r ∧ (s.getS r).kind = false) ∧
    t.status.last ≠ .illegal := by
  cases hint : i.hostInt with
  | some r =>
    rw [last_of_hostInt hint h, seqLen_eq_none_of_hostInt hint]
    cases hk : (s.getS r).kind <;> simp [hk]
  | none =>
    cases hlen : i.seqLen with
    | some len =>
      rw [last_of_seqLen hlen h]
      by_cases hl : len = 4 <;> simp [hl]
    | none =>
      obtain ⟨u, hu⟩ := exec_eq_done hwf hint hlen s
      obtain rfl := done_eq_next (hu.symm.trans h)
      simp

/-- Settles O27: what a word decodes to is well formed, so `exec_outcome` gives the outcome. -/
theorem outcomeOfEachCommand : Obligations.OutcomeOfEachCommand := by
  intro w i s hd
  obtain ⟨t, ht⟩ := exec_total i s
  obtain ⟨hrange, htype, hillegal⟩ := exec_outcome (encodeOfDecode w i hd).1 ht
  refine ⟨t, (issue_of_ok hd s).trans ht, hrange.trans ⟨?_, ?_⟩, htype, hillegal⟩
  · rintro ⟨len, hlen, hne⟩
    obtain ⟨d, addr, hi⟩ := seqLen_eq_some_iff.mp hlen
    exact ⟨d, addr, len, hi, hne⟩
  · rintro ⟨d, addr, len, hi, hne⟩
    exact ⟨len, seqLen_eq_some_iff.mpr ⟨d, addr, hi⟩, hne⟩

/-! ### Illegal -/

/-- A word is no command exactly when it matches no row of the opcode map (R71). -/
theorem decode_eq_error_iff {w : Word} :
    (∃ e, decode w = .error e) ↔ ∀ r ∈ opcodeMap, w &&& r.fmt.mask ≠ r.matchWord := by
  obtain ⟨-, hrow, hnone⟩ := decodingTotalAndUnambiguous w
  refine ⟨fun ⟨e, he⟩ r hr hmatch => ?_, hnone⟩
  obtain ⟨i, hi, -⟩ := hrow r hr hmatch
  cases he.symm.trans hi

/-- Settles O28: a word that is no command raises Illegal, and the command of any other word never
does. -/
theorem illegalExactlyForUnmatchedWords : Obligations.IllegalExactlyForUnmatchedWords := by
  intro w s
  rw [← decode_eq_error_iff]
  cases hd : decode w with
  | ok i =>
    obtain ⟨t, ht, -, -, hillegal⟩ := outcomeOfEachCommand w i s hd
    exact ⟨t, ht, iff_of_false hillegal nofun, fun hlast => absurd hlast hillegal⟩
  | error e =>
    obtain ⟨t, ht, honly, hraised⟩ := issue_raises_illegal hd s
    have hlast : t.status.last = .illegal := congrArg Status.last hraised
    exact ⟨t, ht, iff_of_true hlast ⟨e, rfl⟩, fun _ => ⟨honly, hraised⟩⟩

end Sys2Proof.Machine
end

section
/-! PROOF. Reset and the configuration (O20, O23). RESET and both forms of power-on are served by the same operation,
`resetUnit`; what it leaves alone is the configuration, which no other transaction changes either. -/

namespace Sys2Proof.Machine

/-! ### Reset -/

/-- RESET and a power-on, also one that abandons a command, reset the unit (R230, R233). -/
theorem serve_of_reset {e : HostEvent} (he : e = .reset ∨ ∃ o, e = .powerOn o) (s : State) :
    serve e s = .next s.resetUnit := by
  obtain rfl | ⟨none | during, rfl⟩ := he <;> rfl

/-- Settles O20: the state after the step is `resetUnit` of the state before it, and each piece of that is a reset value. -/
theorem resetLeavesNothingOfThePast : Obligations.ResetLeavesNothingOfThePast := by
  intro s e rest hp he
  have hstep : step s = .next { s with pending := rest }.resetUnit := (step_cons hp).trans (serve_of_reset he _)
  exact ⟨_, hstep, State.resetUnit_pending _, State.getV_resetUnit _, State.getS_resetUnit _, State.byte_resetUnit _,
    State.resetUnit_status _, State.resetUnit_buf _⟩

/-! ### The configuration -/

/-- No run changes the configuration: serving any transaction keeps it (R231). -/
theorem run_cfg {k : Nat} {s t : State} (h : Sys2Proof.core.run k s = .next t) : t.cfg = s.cfg :=
  run_keeps (P := fun u => u.cfg = s.cfg) (ok := fun _ => True) (fun _ _ hu => hu)
    (fun _ _ _ _ hu he => (serve_upkeep he).cfg.trans hu) k (fun _ _ => trivial) rfl h

/-- Settles O23: MUL_ZERO_WIDTH is part of the configuration, which `run_cfg` keeps. -/
theorem runKeepsMulZeroWidth : Obligations.RunKeepsMulZeroWidth :=
  fun _ _ _ h => congrArg Config.mulZeroWidth (run_cfg h)

end Sys2Proof.Machine
end
